-- ==== Sys2Proof/Word.lean ====
section
/-! DEFINITION. The word types of the ports and of the encodings, and the content of a register. -/

namespace Sys2Proof

/-- One byte of a serialised field element (20_memory.md R58). -/
abbrev Byte := BitVec 8

/-- A control word, format CW16 (30_encoding.md R86). -/
abbrev CtlWord := BitVec 16

/-- A host command code, format CMD2 (30_encoding.md R92). -/
abbrev CmdCode := BitVec 2

/-- One lane of the IN or OUT port (10_state.md R30). -/
abbrev Lane := BitVec 256

/-- One S or K register: a field element, or `none` for the spec's no value ⊥ (10_state.md R22). -/
abbrev Reg := Option Nat

end Sys2Proof
end

