-- ==== Sys2Proof/Config.lean ====
section
/-! DEFINITION. The configuration CFG (00_scope.md R3): the parameters a model takes, the constants the spec fixes,
and the open parameters of this hardware as uninterpreted constants. -/

namespace Sys2Proof

/-- The S-box map of a configuration (42_sbox.md R142 to R144). `uninterpreted` is any total map of 0 .. P-1
into itself, of which nothing is known (93_implementation_defined.md U1); see log entry 3. -/
inductive SBox where
  | pow5
  | inv
  | uninterpreted
  deriving DecidableEq, Repr

/-- What the wrapper does with a 32-byte integer >= P (45_host_wrapper.md R196). -/
inductive NonCanon where
  | reject
  | reduce
  deriving DecidableEq, Repr

/-- CFG (00_scope.md R3): `w` = W, `p` = P, `rf` = RF, `rp` = RP, `rc` = the round-constant ROM, `m` = the MDS ROM by
rows (row = output lane, 20_memory.md R56). -/
structure Config where
  w : Nat
  p : Nat
  rf : Nat
  rp : Nat
  rc : List Nat
  m : List (List Nat)
  sbox : SBox
  noncanon : NonCanon
  deriving DecidableEq, Repr

/-- FE_BYTES (00_scope.md R3). -/
def Config.feBytes : Nat := 32

/-- RND_BITS (00_scope.md R3). -/
def Config.rndBits : Nat := 11

/-- W of this instantiation (00_scope.md R3). -/
def Config.stateWidth : Nat := 5

/-- PRICE_PER_UNIT (00_scope.md R3). -/
def Config.pricePerUnit : Nat := 10

/-- UNIT_ID (45_host_wrapper.md R201): a number of the host's dispatch table; the engine has no register for it. -/
def Config.unitId : Nat := 0x10F2C

/-- The open prime (00_scope.md R3; 91_not_in_source.md N2). -/
opaque Config.openPrime : Nat.Primes

/-- Half the open number of full rounds (00_scope.md R3, R4(c)). -/
opaque Config.openHalf : Nat

/-- The open number of partial rounds. -/
opaque Config.openPartial : Nat

/-- The open contents of the round-constant ROM, by word address. -/
opaque Config.openRoundConstant : Nat → Nat

/-- The open contents of the MDS ROM, by (i, j). -/
opaque Config.openMatrix : Nat → Nat → Nat

/-- The open S-box map. -/
opaque Config.openSbox : Nat → Nat

/-- P of this hardware: an open prime below 2^256 (00_scope.md R3, R4(a)). The sum form keeps `2 <= P` visible;
every prime below 2^256 is a possible value and nothing tells which it is (log entry 2). -/
def Config.hardwarePrime : Nat :=
  (if Config.openPrime.1 < 2 ^ (8 * Config.feBytes) then Config.openPrime.1 - 2 else 0) + 2

/-- HALF of this hardware: open, at most 2^RND_BITS (00_scope.md R4(f)). -/
def Config.hardwareHalf : Nat := Config.openHalf % (2 ^ Config.rndBits + 1)

/-- RP of this hardware: open, at most 2^RND_BITS (00_scope.md R4(f)). -/
def Config.hardwarePartial : Nat := Config.openPartial % (2 ^ Config.rndBits + 1)

/-- The configuration of this hardware: W, NONCANON as 00_scope.md R3 gives them, every other parameter open within
the well-formedness conditions of R4. -/
def Config.hardware : Config where
  w := Config.stateWidth
  p := Config.hardwarePrime
  rf := 2 * Config.hardwareHalf
  rp := Config.hardwarePartial
  rc := (List.range (Config.stateWidth * (2 * Config.hardwareHalf + Config.hardwarePartial))).map
    fun a => Config.openRoundConstant a % Config.hardwarePrime
  m := (List.range Config.stateWidth).map fun i => (List.range Config.stateWidth).map
    fun j => Config.openMatrix i j % Config.hardwarePrime
  sbox := .uninterpreted
  noncanon := .reject

end Sys2Proof
end

