-- ==== Sys2Proof/Machine/Operands.lean ====
section
/-! DEFINITION. The operand forms: segments, windows and the two ROMs (20_memory.md), the lanes of a register file
(10_state.md) and of the IN port. -/

namespace Sys2Proof.Machine

/-- HALF = RF / 2 (00_scope.md R3). -/
def half (c : Config) : Nat := c.rf / 2

/-- NRC = W*(RF+RP) (00_scope.md R3). -/
def nrc (c : Config) : Nat := c.w * (c.rf + c.rp)

/-- count(seg) (20_memory.md R54); a segment number other than 1, 2, 3 has no rounds. -/
def segCount (c : Config) (seg : Nat) : Nat :=
  match seg with
  | 1 => half c
  | 2 => c.rp
  | 3 => half c
  | _ => 0

/-- base(seg) (20_memory.md R54). -/
def segBase (c : Config) (seg : Nat) : Nat :=
  match seg with
  | 2 => half c * c.w
  | 3 => half c * c.w + c.rp * c.w
  | _ => 0

/-- The flat address of lane i's constant in round r of a segment (20_memory.md R55). -/
def windowAddr (c : Config) (seg r i : Nat) : Nat := segBase c seg + r * c.w + i

/-- RomRC(a) (20_memory.md R52); an address >= NRC has no word. -/
def romRC (c : Config) (a : Nat) : Option Nat := if a < nrc c then c.rc[a]? else none

/-- RomM(i, j) (20_memory.md R56): row i is the output lane, column j the input lane. -/
def romM (c : Config) (i j : Nat) : Option Nat :=
  if i < c.w ∧ j < c.w then c.m[i]?.bind (·[j]?) else none

/-- All of a list of values, or nothing when one of them is missing. -/
def gather {α : Type} : List (Option α) → Option (List α)
  | [] => some []
  | none :: _ => none
  | some v :: rest => (gather rest).map (v :: ·)

/-- The W words of the window of round r of a segment, lane by lane (20_memory.md R55, R59). -/
def romWindow (c : Config) (seg r : Nat) : Option (List Nat) :=
  gather ((List.range c.w).map fun i => romRC c (windowAddr c seg r i))

/-- The whole MDS ROM, row by row (20_memory.md R59). -/
def romMatrix (c : Config) : Option (List (List Nat)) :=
  gather ((List.range c.w).map fun i => gather ((List.range c.w).map fun j => romM c i j))

/-- One register of a file; a lane beyond the file has no value. -/
def laneOf (regs : List Reg) (i : Nat) : Reg := regs[i]?.join

/-- The values of all W registers of a file, or nothing when one of them holds no value (10_state.md R22). -/
def readLanes (w : Nat) (regs : List Reg) : Option (List Nat) :=
  gather ((List.range w).map (laneOf regs))

/-- W registers without a value (10_state.md R36). -/
def noLanes (w : Nat) : List Reg := List.replicate w none

/-- Some lane of a START operand is >= P (44_scheduler.md R170). -/
def anyNonCanonical (c : Config) (inp : List Lane) : Bool := inp.any fun v => decide (c.p ≤ v.toNat)

/-- The two ROMs hold a canonical word at each of their addresses and nothing else (00_scope.md R4(d), R4(e)). -/
def Memory.wf (c : Config) : Bool :=
  c.rc.length == nrc c && c.rc.all (fun v => decide (v < c.p)) &&
    c.m.length == c.w && c.m.all (fun row => row.length == c.w && row.all (fun v => decide (v < c.p)))

end Sys2Proof.Machine
end

