-- ==== Sys2Proof/Syntax.lean ====
section
/-! DEFINITION. The instructions: one constructor per row of spec/opcode_table.json, the two binary forms, and the
reasons a binary form selects no instruction. -/

namespace Sys2Proof

/-- The nine rows of the opcode table: six micro-operations (30_encoding.md R87) and three host commands (R92). -/
inductive Instr where
  /-- NOP, 44_scheduler.md R165 -/
  | nop
  /-- LRC seg, rnd, 41_round_constants.md R130; the CW16 fields SEG and RND (30_encoding.md R88, R89) -/
  | lrc (seg : BitVec 2) (rnd : BitVec 11)
  /-- ARC, 41_round_constants.md R131 -/
  | arc
  /-- SBF, 42_sbox.md R140 -/
  | sbf
  /-- SBP, 42_sbox.md R141 -/
  | sbp
  /-- MDS, 43_mds.md R150 -/
  | mds
  /-- NONE, 44_scheduler.md R172 -/
  | noCommand
  /-- START v0, .., v(W-1), 44_scheduler.md R170; the operand is the IN port -/
  | start (inp : List Lane)
  /-- ACK, 44_scheduler.md R171 -/
  | ack
  deriving DecidableEq, Repr

/-- The binary form of an instruction (30_encoding.md R85): a control word, or a command code with the IN port beside it. -/
inductive Encoded where
  | cw (word : CtlWord)
  | cmd (code : CmdCode) (inp : List Lane)
  deriving DecidableEq, Repr

/-- Why a word or a command code is reserved (30_encoding.md R90, R92). -/
inductive Reserved where
  /-- OP is 0b110 or 0b111 -/
  | opcode
  /-- SEG or RND is not zero in a word other than LRC -/
  | nonzeroFields
  /-- LRC with SEG = 0 -/
  | segZero
  /-- LRC with RND >= count(SEG) -/
  | roundOutOfRange
  /-- command code 0b11 -/
  | command
  deriving DecidableEq, Repr

end Sys2Proof
end

