-- ==== Sys2Proof/WellFormed.lean ====
section
/-! DEFINITION. Well-formed configurations (00_scope.md R4), the proof that this hardware's is one whatever its open
parameters are, and well-formed instructions (30_encoding.md R88 to R90). -/

namespace Sys2Proof

open Machine

/-- 00_scope.md R4: the configurations the hardware is defined for. (g) holds by construction: `Machine.sboxMap` is a
function of its operand alone and answers a value below P. -/
structure Config.WellFormed (c : Config) : Prop where
  /-- (a) -/
  prime : c.p.Prime
  /-- (a) -/
  below : c.p < 2 ^ (8 * Config.feBytes)
  /-- (b) -/
  width : 1 ≤ c.w
  /-- (c) -/
  even : c.rf % 2 = 0
  /-- (d), (e) -/
  tables : Machine.Memory.wf c = true
  /-- (f) -/
  halfFits : Machine.half c ≤ 2 ^ Config.rndBits
  /-- (f) -/
  partialFits : c.rp ≤ 2 ^ Config.rndBits

/-- What the check of the ROMs says. -/
theorem Machine.Memory.wf_iff (c : Config) : Memory.wf c = true ↔
    c.rc.length = nrc c ∧ (∀ v ∈ c.rc, v < c.p) ∧ c.m.length = c.w ∧
      ∀ row ∈ c.m, row.length = c.w ∧ ∀ v ∈ row, v < c.p := by
  simp [Memory.wf, and_assoc]

theorem Config.hardwarePrime_prime : Nat.Prime Config.hardwarePrime := by
  unfold Config.hardwarePrime
  split
  · have h2 := Config.openPrime.2.two_le
    rw [Nat.sub_add_cancel h2]; exact Config.openPrime.2
  · exact Nat.prime_two

theorem Config.hardwarePrime_lt : Config.hardwarePrime < 2 ^ (8 * Config.feBytes) := by
  unfold Config.hardwarePrime
  split
  · next h =>
    have h2 := Config.openPrime.2.two_le
    rwa [Nat.sub_add_cancel h2]
  · decide

/-- This hardware's configuration is one the hardware is defined for (00_scope.md R4). -/
theorem Config.hardware_wellFormed : Config.hardware.WellFormed where
  prime := Config.hardwarePrime_prime
  below := Config.hardwarePrime_lt
  width := by decide
  even := by simp [Config.hardware]
  tables := by
    have hp : 0 < Config.hardwarePrime := Config.hardwarePrime_prime.pos
    rw [Memory.wf_iff]
    refine ⟨by simp [Config.hardware, nrc], ?_, by simp [Config.hardware], ?_⟩
    · intro v hv
      obtain ⟨a, -, rfl⟩ := List.mem_map.1 hv
      exact Nat.mod_lt _ hp
    · intro row hrow
      obtain ⟨i, -, rfl⟩ := List.mem_map.1 hrow
      refine ⟨by simp [Config.hardware], fun v hv => ?_⟩
      obtain ⟨j, -, rfl⟩ := List.mem_map.1 hv
      exact Nat.mod_lt _ hp
  halfFits := by
    have : Config.hardwareHalf < 2 ^ Config.rndBits + 1 := Nat.mod_lt _ (by decide)
    simp only [half, Config.hardware]
    omega
  partialFits := by
    have : Config.hardwarePartial < 2 ^ Config.rndBits + 1 := Nat.mod_lt _ (by decide)
    simp only [Config.hardware]
    omega

/-- The legal operands of an instruction under a configuration: LRC names a round of a segment (30_encoding.md R88,
R89), START has one lane per element of the state (10_state.md R30). A START lane >= P is legal as an instruction:
it raises FAULT(NONCANON_IN). -/
def Instr.wellFormed (c : Config) : Instr → Bool
  | .lrc seg rnd => decide (seg ≠ 0) && decide (rnd.toNat < Machine.segCount c seg.toNat)
  | .start inp => inp.length == c.w
  | .nop => true
  | .arc => true
  | .sbf => true
  | .sbp => true
  | .mds => true
  | .noCommand => true
  | .ack => true

end Sys2Proof
end

