-- ==== Sys2Proof/Decode.lean ====
section
/-! DEFINITION. Decoding and encoding (30_encoding.md R85 to R92), and the assembler text of an instruction (R95). -/

namespace Sys2Proof

/-- The OP field, CW[15:13] (30_encoding.md R86). -/
def cwOp (w : CtlWord) : BitVec 3 := w.extractLsb' 13 3

/-- The SEG field, CW[12:11] (30_encoding.md R88). -/
def cwSeg (w : CtlWord) : BitVec 2 := w.extractLsb' 11 2

/-- The RND field, CW[10:0] (30_encoding.md R89). -/
def cwRnd (w : CtlWord) : BitVec 11 := w.extractLsb' 0 11

/-- An operation without fields: reserved unless w[12:0] = 0 (30_encoding.md R91 (4)). -/
def noFields (w : CtlWord) (i : Instr) : Except Reserved Instr :=
  if w.extractLsb' 0 13 = 0 then .ok i else .error .nonzeroFields

/-- The part of 30_encoding.md R91 that does not depend on the configuration: the operation and its fields. -/
def decodeFormat (w : CtlWord) : Except Reserved Instr :=
  match (cwOp w).toNat with
  | 0 => noFields w .nop
  | 1 => if cwSeg w = 0 then .error .segZero else .ok (.lrc (cwSeg w) (cwRnd w))
  | 2 => noFields w .arc
  | 3 => noFields w .sbf
  | 4 => noFields w .sbp
  | 5 => noFields w .mds
  | _ => .error .opcode

/-- The decoder of control words (30_encoding.md R91): total, and an LRC is legal only for a round of its segment. -/
def decodeCw (c : Config) (w : CtlWord) : Except Reserved Instr :=
  match decodeFormat w with
  | .ok (.lrc seg rnd) =>
    if rnd.toNat < Machine.segCount c seg.toNat then .ok (.lrc seg rnd) else .error .roundOutOfRange
  | r => r

/-- The decoder of host commands (30_encoding.md R92); START takes the IN port as its operand. -/
def decodeCmd (code : CmdCode) (inp : List Lane) : Except Reserved Instr :=
  match code.toNat with
  | 0 => .ok .noCommand
  | 1 => .ok (.start inp)
  | 2 => .ok .ack
  | _ => .error .command

/-- The decoder of both formats. -/
def decode (c : Config) : Encoded → Except Reserved Instr
  | .cw w => decodeCw c w
  | .cmd code inp => decodeCmd code inp

/-- A control word from its fields (30_encoding.md R86). -/
def cwOf (op : BitVec 3) (seg : BitVec 2) (rnd : BitVec 11) : CtlWord := op ++ seg ++ rnd

/-- The encoder (30_encoding.md R87, R92). ACK and NONE do not sample the IN port; the encoder drives no lanes there. -/
def encode : Instr → Encoded
  | .nop => .cw (cwOf 0 0 0)
  | .lrc seg rnd => .cw (cwOf 1 seg rnd)
  | .arc => .cw (cwOf 2 0 0)
  | .sbf => .cw (cwOf 3 0 0)
  | .sbp => .cw (cwOf 4 0 0)
  | .mds => .cw (cwOf 5 0 0)
  | .noCommand => .cmd 0 []
  | .start inp => .cmd 1 inp
  | .ack => .cmd 2 []

/-- The instruction of a table row's word. CMD2 rows have 2 bits, one byte; CW16 rows have 16. The IN port of START has
no bits in the table, so its W = 5 lanes are zero. The table word comes without a configuration, so this is the
decoder's format part; the range of an LRC's round is checked by `decodeCw` under the configuration (log entry 13). -/
def decodeTableWord (nbits w : Nat) : Option Instr :=
  if nbits ≤ 8 then
    if w < 4 then (decodeCmd (BitVec.ofNat 2 w) (List.replicate Config.stateWidth 0)).toOption else none
  else if nbits = 16 ∧ w < 2 ^ 16 then (decodeFormat (BitVec.ofNat 16 w)).toOption
  else none

/-- Operands in decimal, separated by commas (30_encoding.md R95). -/
def asmOperands : List Nat → String
  | [] => ""
  | [v] => toString v
  | v :: rest => toString v ++ ", " ++ asmOperands rest

/-- The assembler text (30_encoding.md R95). -/
def asmText : Instr → String
  | .nop => "NOP"
  | .lrc seg rnd => "LRC " ++ asmOperands [seg.toNat, rnd.toNat]
  | .arc => "ARC"
  | .sbf => "SBF"
  | .sbp => "SBP"
  | .mds => "MDS"
  | .noCommand => "NONE"
  | .start inp => "START " ++ asmOperands (inp.map (·.toNat))
  | .ack => "ACK"

end Sys2Proof
end

