-- ==== Sys2Proof/Machine/Schedule.lean ====
section
/-! DEFINITION. The round scheduler as functions of its registers: the phases (10_state.md R27), SCHED (44_scheduler.md
R161), NEXT and AFTER (R163). -/

namespace Sys2Proof.Machine

/-- The phases (10_state.md R27); `part` is PARTIAL. -/
inductive Phase where
  | idle
  | full1
  | part
  | full2
  | done
  deriving DecidableEq, Repr

/-- The code of a phase in the PHASE register (10_state.md R27). -/
def phaseCode : Phase → BitVec 3
  | .idle => 0
  | .full1 => 1
  | .part => 2
  | .full2 => 3
  | .done => 4

/-- The phase of a code; 5, 6 and 7 are reserved (10_state.md R27). -/
def phaseOf (code : BitVec 3) : Option Phase :=
  match code.toNat with
  | 0 => some .idle
  | 1 => some .full1
  | 2 => some .part
  | 3 => some .full2
  | 4 => some .done
  | _ => none

/-- PHASE in (FULL1, PARTIAL, FULL2) (10_state.md R31). -/
def phaseBusy : Phase → Bool
  | .full1 => true
  | .part => true
  | .full2 => true
  | .idle => false
  | .done => false

/-- count of a phase: its code is the number of the segment it reads (10_state.md R27; 20_memory.md R54). -/
def phaseCount (c : Config) (p : Phase) : Nat := segCount c (phaseCode p).toNat

/-- AFTER (44_scheduler.md R163): the next phase that has a round, else DONE. -/
def afterPhase (c : Config) (p : Phase) : Phase :=
  match [Phase.full1, .part, .full2].find? fun q =>
      decide ((phaseCode p).toNat < (phaseCode q).toNat) && decide (0 < phaseCount c q) with
  | some q => q
  | none => .done

/-- The scheduler registers as one value, the engine's program counter (10_state.md R25). -/
structure Pc where
  phase : BitVec 3
  round : BitVec 11
  step : BitVec 2
  deriving DecidableEq, Repr

/-- NEXT (44_scheduler.md R163). -/
def nextPc (c : Config) (p : Phase) (r : BitVec 11) (s : BitVec 2) : Pc :=
  if s.toNat < 3 then ⟨phaseCode p, r, s + 1⟩
  else if r.toNat + 1 < phaseCount c p then ⟨phaseCode p, r + 1, 0⟩
  else ⟨phaseCode (afterPhase c p), 0, 0⟩

/-- The micro-operation SCHED names (44_scheduler.md R161). -/
def sched (p : Phase) (r : BitVec 11) (s : BitVec 2) : Instr :=
  match p, s.toNat with
  | .idle, _ => .nop
  | .done, _ => .nop
  | _, 0 => .lrc ((phaseCode p).setWidth 2) r
  | _, 1 => .arc
  | .part, 2 => .sbp
  | _, 2 => .sbf
  | _, _ => .mds

/-- The control word the scheduler emits (44_scheduler.md R161; 30_encoding.md R87). -/
def schedWord (p : Phase) (r : BitVec 11) (s : BitVec 2) : CtlWord :=
  match encode (sched p r s) with
  | .cw w => w
  | .cmd _ _ => 0

end Sys2Proof.Machine
end

