-- ==== Sys2Proof/Machine/State.lean ====
section
/-! DEFINITION. The state (10_state.md R20), its reset value (R36), and the reasons a step can stop. -/

namespace Sys2Proof.Machine

/-- What HOST drives on the input ports in one of its steps (10_state.md R30). -/
structure PortDrive where
  rst : Bool
  cmd : CmdCode
  inp : List Lane
  deriving DecidableEq, Repr

/-- Whose step comes next (00_scope.md R7). -/
inductive Turn where
  | engine
  | host (d : PortDrive)
  deriving DecidableEq, Repr

/-- The state of one engine instance (10_state.md R20). `cfg` is the configuration with the two ROMs, which no step
writes (20_memory.md R51; log entry 1), and `wf` says that it is well-formed: an ill-formed configuration has no state,
and so no meaning (00_scope.md R4; 93_implementation_defined.md U5; log entry 10). `agenda` is the model's own: the turns to come, and the ENGINE's when it is
empty (log entry 5). -/
structure State where
  cfg : Config
  /-- (00_scope.md R4) -/
  wf : cfg.WellFormed
  /-- S[0 .. W-1] (R21) -/
  S : List Reg
  /-- K[0 .. W-1] (R23) -/
  K : List Reg
  /-- PHASE (R27) -/
  phase : BitVec 3
  /-- ROUND (R26) -/
  round : BitVec 11
  /-- STEP (R28) -/
  step : BitVec 2
  /-- FAULT (R29) -/
  fault : Bool
  /-- FCAUSE (R29) -/
  fcause : BitVec 2
  agenda : List Turn
  deriving DecidableEq, Repr

/-- Why the model faults. -/
inductive Fault where
  /-- ARC, SBF, SBP, MDS or a read of the OUT port met a register that holds no value (10_state.md R22: "A model must
  treat a read of ⊥ by a micro-operation or by the OUT port as a fault of the model"). Safe: the model stops. -/
  | readNoValue
  deriving DecidableEq, Repr

/-- Why the model gives no meaning. -/
inductive Refusal where
  /-- an arm of exec that has no meaning yet; none has it now. Safe. -/
  | notModelled (mnemonic : String)
  /-- raised for every instruction when PHASE is 5, 6 or 7 (10_state.md R27: "a model refuses a state with these
  codes"). Safe. -/
  | reservedPhase
  /-- raised for every instruction when FCAUSE is 3 (93_implementation_defined.md U11). Safe. -/
  | reservedCause
  /-- raised by LRC with illegal operands and by the engine's turn on a reserved control word (30_encoding.md R90: "a
  model refuses (gives no step to) a reserved word"). Safe. -/
  | reservedWord (why : Reserved)
  /-- raised by LRC and MDS when a ROM holds no word at an address (20_memory.md R52: "a model refuses it"); no
  operand the rules allow leads to one. Safe. -/
  | romAddress
  /-- raised by LRC, ARC, SBF, SBP and MDS given to `exec` in IDLE or DONE, where the engine has no step
  (44_scheduler.md R166); the scheduler emits NOP there, so no step raises it. Safe. -/
  | engineNotBusy
  /-- raised by START when the operand has not one lane per element of the state; the IN port has exactly W lanes
  (10_state.md R30). Safe. -/
  | portWidth
  /-- raised by a read of the OUT port when it has no value (10_state.md R33: "a model treats a HOST read of them as a
  draw of any value or refuses it"). Safe. -/
  | outNoValue
  /-- raised by RUN on an engine that is not ready, which 45_host_wrapper.md R191 excludes. Safe. -/
  | runNotReady
  /-- raised by RUN when DONE has not come after the 4*(RF+RP) steps of 44_scheduler.md R176; from a ready
  engine DONE always comes by then. Safe. -/
  | runNeverDone
  deriving DecidableEq, Repr

/-- The reset values of 10_state.md R36 for a well-formed configuration, with no input to come. -/
def State.resetWith (c : Config) (h : c.WellFormed) : State where
  cfg := c
  wf := h
  S := List.replicate c.w none
  K := List.replicate c.w none
  phase := 0
  round := 0
  step := 0
  fault := false
  fcause := 0
  agenda := []

/-- This hardware right after reset (10_state.md R36). -/
def State.reset : State := State.resetWith Config.hardware Config.hardware_wellFormed

end Sys2Proof.Machine
end

