-- ==== Sys2Proof/Machine/Ops.lean ====
section
/-! DEFINITION. The named operations on the state that the meanings share: writing the register files and the scheduler
registers, raising FAULT (60_exceptions.md R214), reset (70_reset_and_hazards.md R240), and who may step. -/

namespace Sys2Proof.Machine

/-- What every meaning answers. -/
abbrev Out := Host.Outcome State Fault Refusal

/-- S <- values, all lanes in one step (00_scope.md 6.3). -/
def writeS (s : State) (vs : List Nat) : State := { s with S := vs.map some }

/-- K <- values, all lanes in one step. -/
def writeK (s : State) (vs : List Nat) : State := { s with K := vs.map some }

/-- S[0] <- v, the other lanes unchanged (42_sbox.md R141). -/
def writeLane0 (s : State) (v : Nat) : State := { s with S := s.S.set 0 (some v) }

/-- K <- ⊥ (44_scheduler.md R170). -/
def dropK (s : State) : State := { s with K := noLanes s.cfg.w }

/-- S, K <- ⊥ (44_scheduler.md R171). -/
def dropAll (s : State) : State := { s with S := noLanes s.cfg.w, K := noLanes s.cfg.w }

/-- pc <- (p, r, s) (00_scope.md 6.3). -/
def writePc (s : State) (pc : Pc) : State := { s with phase := pc.phase, round := pc.round, step := pc.step }

/-- The agenda without the turn just taken. -/
def writeAgenda (s : State) (a : List Turn) : State := { s with agenda := a }

/-- pc <- NEXT(PHASE, ROUND, STEP) (44_scheduler.md R163). -/
def advance (p : Phase) (s : State) : State := writePc s (nextPc s.cfg p s.round s.step)

/-- FCAUSE code of BAD_CMD (10_state.md R29). -/
def badCmd : BitVec 2 := 1

/-- FCAUSE code of NONCANON_IN (10_state.md R29). -/
def nonCanonIn : BitVec 2 := 2

/-- raise FAULT(cause) (60_exceptions.md R214): the first cause is kept and no other register is written. There is no
return but reset (R218). -/
def raiseFault (cause : BitVec 2) (s : State) : State :=
  if s.fault then s else { s with fault := true, fcause := cause }

/-- The reset step (70_reset_and_hazards.md R240): every register to its reset value; the configuration with the ROMs
(R241) and the inputs to come stay. -/
def resetRegs (s : State) : State := { State.resetWith s.cfg s.wf with agenda := s.agenda }

/-- A state that carries a reserved PHASE or FCAUSE code has no meaning (10_state.md R27, R29;
93_implementation_defined.md U11). -/
def onLegal (s : State) (k : Phase → Out) : Out :=
  match phaseOf s.phase with
  | none => .refused .reservedPhase
  | some p => if s.fcause = 3 then .refused .reservedCause else k p

/-- A micro-operation that works on the registers runs only while FAULT = 0 and the engine is busy (44_scheduler.md
R166). With FAULT = 1 the engine is halted and nothing changes (60_exceptions.md R218). -/
def onEngine (s : State) (k : Phase → Out) : Out :=
  onLegal s fun p =>
    if s.fault then .next s
    else if phaseBusy p then k p
    else .refused .engineNotBusy

/-- A host command has an effect only while FAULT = 0 (44_scheduler.md R174; 60_exceptions.md R219 (1)). -/
def onCommand (s : State) (k : Phase → Out) : Out :=
  onLegal s fun p => if s.fault then .next s else k p

/-- The values of a register file, or the fault of reading ⊥, which 10_state.md R22 demands of a model
(92_eei_decisions.md D4; 93_implementation_defined.md U6). -/
def withLanes (s : State) (regs : List Reg) (k : List Nat → Out) : Out :=
  match readLanes s.cfg.w regs with
  | some vs => k vs
  | none => .fault .readNoValue

/-- A ROM access, or the refusal of an address that has no word (20_memory.md R52). -/
def withRom {α : Type} (words : Option α) (k : α → Out) : Out :=
  match words with
  | some v => k v
  | none => .refused .romAddress

end Sys2Proof.Machine
end

