-- ==== Sys2Proof/Machine/Commands.lean ====
section
/-! DEFINITION. NOP and the host commands NONE, START and ACK (44_scheduler.md). -/

namespace Sys2Proof.Machine

/-- NOP (44_scheduler.md R165): nothing is written, NEXT is not applied. -/
def execNop (s : State) : Out := onLegal s fun _ => .next s

/-- NONE (44_scheduler.md R172): no effect in any phase. -/
def execNoCommand (s : State) : Out := onLegal s fun _ => .next s

/-- START (44_scheduler.md R170), tests in the order of 60_exceptions.md R219. -/
def execStart (inp : List Lane) (s : State) : Out :=
  onCommand s fun p =>
    if phaseBusy p then .next (raiseFault badCmd s)
    else if inp.length ≠ s.cfg.w then .refused .portWidth
    else if anyNonCanonical s.cfg inp then .next (raiseFault nonCanonIn s)
    else .next (writePc (dropK (writeS s (inp.map (·.toNat)))) ⟨phaseCode (afterPhase s.cfg .idle), 0, 0⟩)

/-- ACK (44_scheduler.md R171). -/
def execAck (s : State) : Out :=
  onCommand s fun p =>
    if p = .done then .next (writePc (dropAll s) ⟨phaseCode .idle, 0, 0⟩)
    else .next (raiseFault badCmd s)

end Sys2Proof.Machine
end

