-- ==== Sys2Proof/Machine/FieldArith.lean ====
section
/-! DEFINITION. The field arithmetic of the datapath (40_field_arithmetic.md): exact integers, then the residue mod P,
and the S-box map of a configuration (42_sbox.md). -/

namespace Sys2Proof.Machine

/-- 40_field_arithmetic.md R111. -/
def fadd (p a b : Nat) : Nat := (a + b) % p

/-- 40_field_arithmetic.md R112. -/
def fmul (p a b : Nat) : Nat := (a * b) % p

/-- 40_field_arithmetic.md R113. -/
def fpow (p a e : Nat) : Nat := a ^ e % p

/-- 40_field_arithmetic.md R114: a^(P-2) mod P, with 0 sent to 0 also when P = 2. -/
def finv (p a : Nat) : Nat := if a = 0 then 0 else fpow p a (p - 2)

/-- 40_field_arithmetic.md R115: the exact integer sum of products, reduced once. -/
def fdot (p : Nat) (ms ss : List Nat) : Nat := (List.zipWith (· * ·) ms ss).sum % p

/-- SBOX of a configuration: POW5 (42_sbox.md R142), INV (R143), or the open map (R144), whose range is 0 .. P-1
(00_scope.md R4(g)). -/
def sboxMap (c : Config) (x : Nat) : Nat :=
  match c.sbox with
  | .pow5 => fpow c.p x 5
  | .inv => finv c.p x
  | .uninterpreted => Config.openSbox x % c.p

end Sys2Proof.Machine
end

