-- ==== Sys2Proof/Machine/Mds.lean ====
section
/-! DEFINITION. MDS (43_mds.md). -/

namespace Sys2Proof.Machine

/-- MDS (43_mds.md R150): every output lane from the pre-step state, row = output lane. -/
def execMds (s : State) : Out :=
  onEngine s fun p =>
    withLanes s s.S fun vs => withRom (romMatrix s.cfg) fun rows =>
      .next (advance p (writeS s (rows.map fun row => fdot s.cfg.p row vs)))

end Sys2Proof.Machine
end

