-- ==== Sys2Proof/Machine/RoundConstants.lean ====
section
/-! DEFINITION. LRC and ARC (41_round_constants.md). -/

namespace Sys2Proof.Machine

/-- LRC seg, rnd (41_round_constants.md R130). An illegal pair is a reserved control word (30_encoding.md R90). -/
def execLrc (seg : BitVec 2) (rnd : BitVec 11) (s : State) : Out :=
  onEngine s fun p =>
    if seg = 0 then .refused (.reservedWord .segZero)
    else if rnd.toNat < segCount s.cfg seg.toNat then
      withRom (romWindow s.cfg seg.toNat rnd.toNat) fun ks => .next (advance p (writeK s ks))
    else .refused (.reservedWord .roundOutOfRange)

/-- ARC (41_round_constants.md R131). -/
def execArc (s : State) : Out :=
  onEngine s fun p =>
    withLanes s s.S fun vs => withLanes s s.K fun ks =>
      .next (advance p (writeS s (List.zipWith (fadd s.cfg.p) vs ks)))

end Sys2Proof.Machine
end

