-- ==== Sys2Proof/Machine/SboxLayer.lean ====
section
/-! DEFINITION. SBF and SBP (42_sbox.md). -/

namespace Sys2Proof.Machine

/-- SBF (42_sbox.md R140). -/
def execSbf (s : State) : Out :=
  onEngine s fun p => withLanes s s.S fun vs => .next (advance p (writeS s (vs.map (sboxMap s.cfg))))

/-- SBP (42_sbox.md R141): lane 0 alone is read and written. If it holds ⊥, reading it is the fault of 10_state.md R22. -/
def execSbp (s : State) : Out :=
  onEngine s fun p =>
    match laneOf s.S 0 with
    | some v => .next (advance p (writeLane0 s (sboxMap s.cfg v)))
    | none => .fault .readNoValue

end Sys2Proof.Machine
end

