-- ==== Sys2Proof/Machine/Dispatch.lean ====
section
/-! DEFINITION. The dispatch: one arm per row of spec/opcode_table.json. -/

namespace Sys2Proof.Machine

def exec (i : Instr) (s : State) : Host.Outcome State Fault Refusal :=
  match i with
  | .nop => Sys2Proof.Machine.execNop s
  | .lrc seg rnd => Sys2Proof.Machine.execLrc seg rnd s
  | .arc => Sys2Proof.Machine.execArc s
  | .sbf => Sys2Proof.Machine.execSbf s
  | .sbp => Sys2Proof.Machine.execSbp s
  | .mds => Sys2Proof.Machine.execMds s
  | .noCommand => Sys2Proof.Machine.execNoCommand s
  | .start inp => Sys2Proof.Machine.execStart inp s
  | .ack => Sys2Proof.Machine.execAck s

end Sys2Proof.Machine
end

