-- ==== Sys2Proof/Machine/Agents.lean ====
section
/-! DEFINITION. One turn of each agent (00_scope.md R7): the ENGINE runs the control word its scheduler emits, HOST
presents a command or a reset. And where a table word must stand to be the next one run. -/

namespace Sys2Proof.Machine

/-- The ENGINE's turn (44_scheduler.md R166): with FAULT = 1 it is halted and nothing changes; otherwise the word
SCHED(PHASE, ROUND, STEP) is decoded and executed. In IDLE and DONE that word is NOP. -/
def engineTurn (s : State) : Out :=
  onLegal s fun p =>
    if s.fault then .next s
    else
      match decodeCw s.cfg (schedWord p s.round s.step) with
      | .ok i => exec i s
      | .error why => .refused (.reservedWord why)

/-- HOST's turn: reset takes precedence over the command beside it (70_reset_and_hazards.md R240); the reserved command
code raises BAD_CMD unless FAULT = 1 already (60_exceptions.md R219). -/
def hostTurn (d : PortDrive) (s : State) : Out :=
  if d.rst then .next (resetRegs s)
  else
    match decodeCmd d.cmd d.inp with
    | .ok i => exec i s
    | .error _ => onCommand s fun _ => .next (raiseFault badCmd s)

/-- The turn of the agent that moves. -/
def takeTurn (t : Turn) (s : State) : Out :=
  match t with
  | .engine => engineTurn s
  | .host d => hostTurn d s

/-- Lanes that hold no value get 0, a field element under every prime. -/
def fillLanes (w : Nat) (regs : List Reg) : List Reg :=
  (List.range w).map fun i => some ((laneOf regs i).getD 0)

/-- The engine inside an invocation, not faulted, at a position, with the ENGINE's turn next. S holds values there
(10_state.md R35(a)). -/
def placeAt (s : State) (pc : Pc) : State :=
  { writePc s pc with fault := false, fcause := 0, S := fillLanes s.cfg.w s.S, agenda := .engine :: s.agenda }

/-- A position at which the scheduler emits a micro-operation's word (44_scheduler.md R161). ARC reads K, which holds
values there (10_state.md R35(b)). The host commands are emitted nowhere. -/
def placeMicroOp (s : State) (i : Instr) : State :=
  match i with
  | .nop =>
    if s.phase = 0 ∨ s.phase = 4 then writeAgenda s (.engine :: s.agenda)
    else writeAgenda (writePc s ⟨0, 0, 0⟩) (.engine :: s.agenda)
  | .lrc seg rnd => placeAt s ⟨seg.setWidth 3, rnd, 0⟩
  | .arc => { placeAt s ⟨1, 0, 1⟩ with K := fillLanes s.cfg.w s.K }
  | .sbf => placeAt s ⟨1, 0, 2⟩
  | .sbp => placeAt s ⟨2, 0, 2⟩
  | .mds => placeAt s ⟨1, 0, 3⟩
  | .noCommand => s
  | .start _ => s
  | .ack => s

/-- A command code on the CMD port in the next step, with zero lanes on the IN port. -/
def placeCommand (s : State) (code : CmdCode) : State :=
  writeAgenda s (.host ⟨false, code, List.replicate s.cfg.w 0⟩ :: s.agenda)

/-- The place of a table word: the command port for CMD2, the scheduler's position for CW16. A reserved control word is
emitted nowhere, so nothing is placed (log entry 14). -/
def placeTableWord (s : State) (nbits w : Nat) : State :=
  if nbits ≤ 8 then placeCommand s (BitVec.ofNat 2 w)
  else
    match decodeTableWord nbits w with
    | some i => placeMicroOp s i
    | none => s

end Sys2Proof.Machine
end

