-- ==== Sys2Proof/Machine/Step.lean ====
section
/-! DEFINITION. One step of the machine, and placing a table word where the next step runs it. -/

namespace Sys2Proof.Machine

/-- One step: the first turn of the agenda, or the ENGINE's when HOST has nothing to do (00_scope.md R7). -/
def step (s : State) : Host.Outcome State Fault Refusal :=
  match s.agenda with
  | [] => engineTurn s
  | t :: rest => takeTurn t (writeAgenda s rest)

/-- The table word where `step` takes its next instruction from: the scheduler registers for a control word, the command
port for a command (log entry 14). -/
def State.withFetchWord (s : State) (nbits w : Nat) : State := placeTableWord s nbits w

end Sys2Proof.Machine
end

