-- ==== Sys2Proof/Machine/Bytes.lean ====
section
/-! DEFINITION. The byte order of a serialised field element (20_memory.md R58; 30_encoding.md R80, R81). -/

namespace Sys2Proof.Machine

/-- be32 (30_encoding.md R80): byte k is v[8*(31-k)+7 : 8*(31-k)], byte 0 the most significant. -/
def be32 (v : Nat) : List Byte :=
  (List.range Config.feBytes).map fun k => BitVec.ofNat 8 (v / 2 ^ (8 * (Config.feBytes - 1 - k)))

/-- unbe32 (30_encoding.md R81), the big-endian integer of a byte string. -/
def unbe32 (bytes : List Byte) : Nat := bytes.foldl (fun acc b => acc * 256 + b.toNat) 0

end Sys2Proof.Machine
end

