-- ==== Sys2Proof/Machine/Flags.lean ====
section
/-! DEFINITION. The host-visible flags (10_state.md R31), the STATUS word (30_encoding.md R93) and the OUT port
(10_state.md R33). There are no condition codes (R32). -/

namespace Sys2Proof.Machine

/-- BUSY (10_state.md R31). -/
def busyFlag (s : State) : Bool := s.phase == 1 || s.phase == 2 || s.phase == 3

/-- DONE (10_state.md R31). -/
def doneFlag (s : State) : Bool := s.phase == 4

/-- READY (10_state.md R31). -/
def readyFlag (s : State) : Bool := !s.fault && (s.phase == 0 || s.phase == 4)

/-- The STATUS port word (30_encoding.md R93): bits 7:5 zero, 4:3 FCAUSE, 2 FAULT, 1 DONE, 0 BUSY. -/
def statusWord (s : State) : BitVec 8 :=
  0#3 ++ s.fcause ++ BitVec.ofBool s.fault ++ BitVec.ofBool (doneFlag s) ++ BitVec.ofBool (busyFlag s)

/-- A HOST read of the OUT port (10_state.md R30, R33): zext_256 of each lane in DONE with FAULT = 0, no value otherwise.
A lane that holds ⊥ is the fault of R22, which names the OUT port. -/
def readOut (s : State) : Host.Outcome (List Lane) Fault Refusal :=
  if doneFlag s && !s.fault then
    match readLanes s.cfg.w s.S with
    | some vs => .next (vs.map (BitVec.ofNat 256))
    | none => .fault .readNoValue
  else .refused .outNoValue

end Sys2Proof.Machine
end

