-- ==== Sys2Proof/Machine/Permute.lean ====
section
/-! DEFINITION. The permutation as a function (44_scheduler.md R160, R167), with the global round number of 20_memory.md
R57, and the pseudo-instructions (30_encoding.md R96). Nothing here is used by `step`: it is what the machine is
compared with. -/

namespace Sys2Proof.Machine

/-- ARC_g (44_scheduler.md R167): the words at flat addresses g*W .. g*W + W - 1. -/
def arcRound (c : Config) (g : Nat) (s : List Nat) : List Nat :=
  List.zipWith (fadd c.p) s ((c.rc.drop (g * c.w)).take c.w)

/-- SF (44_scheduler.md R167). -/
def fullSbox (c : Config) (s : List Nat) : List Nat := s.map (sboxMap c)

/-- SP (44_scheduler.md R167). -/
def partialSbox (c : Config) : List Nat → List Nat
  | [] => []
  | x :: rest => sboxMap c x :: rest

/-- MIX (44_scheduler.md R167). -/
def mixLayer (c : Config) (s : List Nat) : List Nat := c.m.map fun row => fdot c.p row s

/-- F_g (44_scheduler.md R167). -/
def fullRound (c : Config) (s : List Nat) (g : Nat) : List Nat := mixLayer c (fullSbox c (arcRound c g s))

/-- Q_g (44_scheduler.md R167). -/
def partialRound (c : Config) (s : List Nat) (g : Nat) : List Nat := mixLayer c (partialSbox c (arcRound c g s))

/-- S after the first full-round phase (44_scheduler.md R160 step 3). -/
def afterFull1 (c : Config) (inp : List Nat) : List Nat := (List.range (half c)).foldl (fullRound c) inp

/-- S after the partial-round phase (44_scheduler.md R160 step 4). -/
def afterPartial (c : Config) (inp : List Nat) : List Nat :=
  (List.range' (half c) c.rp).foldl (partialRound c) (afterFull1 c inp)

/-- permute (44_scheduler.md R160, R167). -/
def permute (c : Config) (inp : List Nat) : List Nat :=
  (List.range' (half c + c.rp) (half c)).foldl (fullRound c) (afterPartial c inp)

/-- Engine steps of one invocation (44_scheduler.md R176). -/
def stepsPerInvocation (c : Config) : Nat := 4 * (c.rf + c.rp)

/-- FROUND seg, r (30_encoding.md R96). -/
def froundProgram (seg : BitVec 2) (r : Nat) : List Instr := [.lrc seg (BitVec.ofNat 11 r), .arc, .sbf, .mds]

/-- PROUND r (30_encoding.md R96). -/
def proundProgram (r : Nat) : List Instr := [.lrc 2 (BitVec.ofNat 11 r), .arc, .sbp, .mds]

/-- PERMUTE (30_encoding.md R96). -/
def permuteProgram (c : Config) : List Instr :=
  (List.range (half c)).flatMap (froundProgram 1) ++
    (List.range c.rp).flatMap proundProgram ++
      (List.range (half c)).flatMap (froundProgram 3)

end Sys2Proof.Machine
end

