-- ==== Sys2Proof/Machine/Wrapper.lean ====
section
/-! DEFINITION. The metered wrapper transaction RUN (45_host_wrapper.md), a HOST procedure made of START, waiting, a
read of OUT and ACK. -/

namespace Sys2Proof.Machine

/-- The errors of RUN (60_exceptions.md R210). -/
inductive RunError where
  | wrongLength
  | outOfBudget
  | invalidFieldEncoding
  deriving DecidableEq, Repr

/-- The reply of RUN (30_encoding.md R94). -/
inductive RunReply where
  | ok (cost : Nat) (output : List Byte)
  | err (e : RunError)
  deriving DecidableEq, Repr

/-- The numeric code of a reply (60_exceptions.md R211). -/
def replyCode : RunReply → Nat
  | .ok _ _ => 0
  | .err .wrongLength => 1
  | .err .outOfBudget => 2
  | .err .invalidFieldEncoding => 3

/-- The charge of a call (45_host_wrapper.md R193). -/
def runCost (c : Config) : Nat := c.w * Config.pricePerUnit

/-- The decoding of a 32-byte input (45_host_wrapper.md R196). -/
def decodeInput (c : Config) (input : List Byte) : Except RunError Nat :=
  if unbe32 input < c.p then .ok (unbe32 input)
  else
    match c.noncanon with
    | .reject => .error .invalidFieldEncoding
    | .reduce => .ok (unbe32 input % c.p)

/-- The checks of RUN in their order (45_host_wrapper.md R191, R199): length, budget, decoding. -/
def checkInput (c : Config) (input : List Byte) (budget : BitVec 64) : Except RunError Nat :=
  if input.length ≠ Config.feBytes then .error .wrongLength
  else if budget.toNat < runCost c then .error .outOfBudget
  else decodeInput c input

/-- One action after another, ending with the first that stops. -/
def andThen {α β : Type} (r : Host.Outcome α Fault Refusal) (k : α → Host.Outcome β Fault Refusal) :
    Host.Outcome β Fault Refusal :=
  match r with
  | .next a => k a
  | .fault e => .fault e
  | .refused e => .refused e

/-- wait until STATUS.DONE = 1 (45_host_wrapper.md R191), for at most a number of engine steps. -/
def waitDone (n : Nat) (s : State) : Out :=
  if doneFlag s then .next s
  else
    match n with
    | 0 => .refused .runNeverDone
    | n + 1 => andThen (engineTurn s) (waitDone n)

/-- OUT[0] (45_host_wrapper.md R197). -/
def readOut0 (s : State) : Host.Outcome Lane Fault Refusal :=
  andThen (readOut s) fun lanes =>
    match lanes with
    | y :: _ => .next y
    | [] => .refused .outNoValue

/-- RUN input, budget (45_host_wrapper.md R191): the reply and the engine after it. DESIGN CHOICE (log entry 15): R191
gives RUN a meaning only on an engine in IDLE or DONE with FAULT = 0. On any other engine the checks of length, budget and
decoding are made all the same, and a failed one answers its error, which is no call of the engine (60_exceptions.md
R210); where all of them pass, RUN is refused. -/
def runUnit (input : List Byte) (budget : BitVec 64) (s : State) : Host.Outcome (RunReply × State) Fault Refusal :=
  match checkInput s.cfg input budget with
  | .error e => .next (.err e, s)
  | .ok v =>
    if readyFlag s then
      andThen (exec (.start (List.replicate s.cfg.w (BitVec.ofNat 256 v))) s) fun s1 =>
      andThen (waitDone (stepsPerInvocation s.cfg) s1) fun s2 =>
      andThen (readOut0 s2) fun y =>
      andThen (exec .ack s2) fun s3 =>
      .next (.ok (runCost s.cfg) (be32 y.toNat), s3)
    else .refused .runNotReady

end Sys2Proof.Machine
end

