-- ==== Sys2Proof/Safety.lean ====
section
/-! DEFINITION. The terms of the claims: when each agent's step is enabled, the invariant of 10_state.md R35, and the
inputs a HOST can drive. -/

namespace Sys2Proof.Machine

/-- PHASE holds one of its five codes and FCAUSE one of its three (10_state.md R27, R29). -/
def State.CodesLegal (s : State) : Prop := s.phase.toNat ≤ 4 ∧ s.fcause ≠ 3

/-- The condition under which the ENGINE has a step (44_scheduler.md R166). -/
def State.EngineEnabled (s : State) : Prop :=
  s.fault = false ∧ s.fcause ≠ 3 ∧ (s.phase = 1 ∨ s.phase = 2 ∨ s.phase = 3)

/-- READY (10_state.md R31), in a state without reserved codes. -/
def State.Ready (s : State) : Prop := s.fault = false ∧ s.fcause ≠ 3 ∧ (s.phase = 0 ∨ s.phase = 4)

/-- Every lane of a register file holds a value below P. -/
def CanonicalLanes (c : Config) (regs : List Reg) : Prop := ∀ r ∈ regs, ∃ v, r = some v ∧ v < c.p

/-- What 10_state.md R35 says of every reachable state, and of what the registers hold beside it: the files have W
lanes (R21), FCAUSE is 0 exactly while FAULT is 0 and never 3 (R29). Its clauses hold with FAULT = 1 too, since raising
FAULT writes no other register (60_exceptions.md R214). -/
structure State.Inv (s : State) : Prop where
  lanesS : s.S.length = s.cfg.w
  lanesK : s.K.length = s.cfg.w
  cause : s.fault = false ↔ s.fcause = 0
  causeLegal : s.fcause ≠ 3
  /-- (a) -/
  valuesS : 1 ≤ s.phase.toNat → CanonicalLanes s.cfg s.S
  /-- (b) -/
  window : (s.phase = 1 ∨ s.phase = 2 ∨ s.phase = 3) → s.step ≠ 0 →
    ∀ i < s.cfg.w, ∃ v, s.K[i]? = some (some v) ∧ v < s.cfg.p ∧
      s.cfg.rc[segBase s.cfg s.phase.toNat + s.round.toNat * s.cfg.w + i]? = some v
  /-- (c) -/
  atRest : (s.phase = 0 ∨ s.phase = 4) → s.round = 0 ∧ s.step = 0
  /-- (d) -/
  idleEmpty : s.phase = 0 → (∀ r ∈ s.S, r = none) ∧ (∀ r ∈ s.K, r = none)
  /-- (e) -/
  inRange : (s.phase = 1 ∨ s.phase = 2 ∨ s.phase = 3) → s.round.toNat < segCount s.cfg s.phase.toNat
  /-- (f) -/
  phaseLegal : s.phase.toNat ≤ 4

/-- A drive of the input ports: IN has W lanes (10_state.md R30). -/
def Turn.Drivable (c : Config) : Turn → Prop
  | .engine => True
  | .host d => d.inp.length = c.w

/-- The global position of the scheduler in its invocation: four per round, rounds numbered as in 20_memory.md R57. -/
def globalPosition (c : Config) (p : Phase) (r : BitVec 11) (s : BitVec 2) : Nat :=
  4 * ((match p with
    | .idle => 0
    | .full1 => 0
    | .part => half c
    | .full2 => half c + c.rp
    | .done => c.rf + c.rp) + r.toNat) + s.toNat

/-- NEXT of the scheduler registers a state holds (44_scheduler.md R163). -/
def State.nextPos (s : State) : Pc :=
  match phaseOf s.phase with
  | some p => nextPc s.cfg p s.round s.step
  | none => ⟨s.phase, s.round, s.step⟩

/-- The word SCHED(PHASE, ROUND, STEP) of a state (44_scheduler.md R161). -/
def State.emitted (s : State) : Option CtlWord :=
  (phaseOf s.phase).map fun p => schedWord p s.round s.step

/-- The next turn is not a reset. -/
def State.NoResetNext (s : State) : Prop := ∀ d rest, s.agenda = .host d :: rest → d.rst = false

/-- START's operand is one the engine accepts: W lanes, each below P (44_scheduler.md R170). -/
def AcceptedInput (c : Config) (inp : List Lane) : Prop := inp.length = c.w ∧ ∀ v ∈ inp, v.toNat < c.p

end Sys2Proof.Machine
end

