-- ==== Sys2Proof/Certificates/Slice0/Obligations.lean ====
section
/-! DEFINITION. The statements about the model, from the numbered rules of the spec. In each of them `exec i s = .next t`
is a conclusion: the instruction completes, in the state the rules give. "In the spec: R<n> derived" or "decision D<k>"
says that the spec itself marks the rule as its own inference or choice; "log entry" names the model's own choices
(notes/assumptions) a statement rests on. -/

open Sys2Proof Sys2Proof.Machine

/-! ## Encoding -/

/-- 30_encoding.md R86 to R92: decoding what the encoder writes gives the instruction back, with every operand. In the
spec: R86 decision D11; R87 decision D11; R88 decision D11; R89 decision D11; R90 decision D11; R91 derived; R92
decision D3. -/
def Obligations.DecodeOfEncode : Prop :=
  ∀ (c : Config) (i : Instr), c.WellFormed → i.wellFormed c = true → decode c (encode i) = .ok i

/-- 30_encoding.md R86, R91: a control word that decodes is the encoding of the instruction it decodes to, which is
well-formed; so no bit of a control word is dropped and no word has two meanings. In the spec: R86 decision D11; R91
derived. -/
def Obligations.EncodeOfDecode : Prop :=
  ∀ (c : Config) (w : CtlWord) (i : Instr), c.WellFormed →
    decodeCw c w = .ok i → encode i = .cw w ∧ i.wellFormed c = true

/-- 30_encoding.md R91: the decoding order on every 16-bit word. In the spec: R91 derived. -/
def Obligations.DecodingOrder : Prop :=
  ∀ (c : Config) (w : CtlWord), c.WellFormed →
    ((w.extractLsb' 13 3 = 6 ∨ w.extractLsb' 13 3 = 7) → decodeCw c w = .error .opcode) ∧
    (w.extractLsb' 13 3 = 1 →
      (w.extractLsb' 11 2 = 0 → decodeCw c w = .error .segZero) ∧
      (w.extractLsb' 11 2 ≠ 0 → (w.extractLsb' 0 11).toNat ≥ segCount c (w.extractLsb' 11 2).toNat →
        decodeCw c w = .error .roundOutOfRange) ∧
      (w.extractLsb' 11 2 ≠ 0 → (w.extractLsb' 0 11).toNat < segCount c (w.extractLsb' 11 2).toNat →
        decodeCw c w = .ok (.lrc (w.extractLsb' 11 2) (w.extractLsb' 0 11)))) ∧
    (w.extractLsb' 0 13 ≠ 0 → (w.extractLsb' 13 3 = 0 ∨ w.extractLsb' 13 3 = 2 ∨ w.extractLsb' 13 3 = 3 ∨
        w.extractLsb' 13 3 = 4 ∨ w.extractLsb' 13 3 = 5) → decodeCw c w = .error .nonzeroFields) ∧
    (w.extractLsb' 0 13 = 0 →
      (w.extractLsb' 13 3 = 0 → decodeCw c w = .ok .nop) ∧
      (w.extractLsb' 13 3 = 2 → decodeCw c w = .ok .arc) ∧
      (w.extractLsb' 13 3 = 3 → decodeCw c w = .ok .sbf) ∧
      (w.extractLsb' 13 3 = 4 → decodeCw c w = .ok .sbp) ∧
      (w.extractLsb' 13 3 = 5 → decodeCw c w = .ok .mds))

/-- 30_encoding.md R87, R92: control words of the table and the command codes, written out. In the spec: R87 decision
D11; R92 decision D3. Log entry 13. -/
def Obligations.WordsOfTheTable : Prop :=
  ∀ (c : Config) (inp : List Lane), c.WellFormed →
    decodeCw c 0x0000 = .ok .nop ∧ decodeCw c 0x4000 = .ok .arc ∧ decodeCw c 0x6000 = .ok .sbf ∧
    decodeCw c 0x8000 = .ok .sbp ∧ decodeCw c 0xA000 = .ok .mds ∧
    (0 < half c → decodeCw c 0x2800 = .ok (.lrc 1 0)) ∧ (4 < c.rp → decodeCw c 0x3004 = .ok (.lrc 2 4)) ∧
    (1 < half c → decodeCw c 0x3801 = .ok (.lrc 3 1)) ∧
    decodeCmd 0b00 inp = .ok .noCommand ∧ decodeCmd 0b01 inp = .ok (.start inp) ∧ decodeCmd 0b10 inp = .ok .ack ∧
    decodeCmd 0b11 inp = .error .command

/-- 30_encoding.md R80, R81: the 32-byte big-endian form, byte 0 the most significant, and its inverse. In the spec:
R81 derived. -/
def Obligations.BytesRoundTrip : Prop :=
  (∀ v < 2 ^ 256, (be32 v).length = 32 ∧ unbe32 (be32 v) = v ∧
    ∀ k < 32, (be32 v)[k]? = some (BitVec.ofNat 8 (v / 256 ^ (31 - k)))) ∧
  (∀ bytes : List Byte, bytes.length = 32 → be32 (unbe32 bytes) = bytes ∧ unbe32 bytes < 2 ^ 256)

/-! ## The ROMs -/

/-- 20_memory.md R54: the three segments tile the addresses 0 .. NRC-1 with no gap and no overlap. In the spec: R54
derived. -/
def Obligations.SegmentsTileRom : Prop :=
  ∀ c : Config, c.WellFormed → ∀ a < nrc c,
    ∃ seg r i, (1 ≤ seg ∧ seg ≤ 3 ∧ r < segCount c seg ∧ i < c.w) ∧ windowAddr c seg r i = a ∧
      ∀ seg' r' i', (1 ≤ seg' ∧ seg' ≤ 3 ∧ r' < segCount c seg' ∧ i' < c.w) → windowAddr c seg' r' i' = a →
        seg' = seg ∧ r' = r ∧ i' = i

/-- 20_memory.md R57: under the global round number g the window is the flat addresses g*W .. g*W + W - 1. In the
spec: R57 derived. -/
def Obligations.FlatWindowForm : Prop :=
  ∀ c : Config, c.WellFormed →
    (∀ r < segCount c 1, ∀ i, windowAddr c 1 r i = r * c.w + i) ∧
    (∀ r < segCount c 2, ∀ i, windowAddr c 2 r i = (half c + r) * c.w + i) ∧
    (∀ r < segCount c 3, ∀ i, windowAddr c 3 r i = (half c + c.rp + r) * c.w + i) ∧
    segCount c 1 + segCount c 2 + segCount c 3 = c.rf + c.rp

/-- 41_round_constants.md R133, 20_memory.md R57: over one invocation the LRC words of PERMUTE read the addresses 0 ..
NRC-1 in increasing order, each once. In the spec: R133 derived; R57 derived. -/
def Obligations.EveryConstantLoadedOnce : Prop :=
  ∀ c : Config, c.WellFormed →
    (permuteProgram c).flatMap (fun i => match i with
      | .lrc seg rnd => (List.range c.w).map (windowAddr c seg.toNat rnd.toNat)
      | _ => []) = List.range (nrc c)

/-- 20_memory.md R51: no micro-operation, no host command and no reset writes a ROM (or any other parameter). Log
entries 1, 10. -/
def Obligations.RomsNeverWritten : Prop :=
  (∀ i s t, exec i s = .next t → t.cfg = s.cfg ∧ (∀ a, romRC t.cfg a = romRC s.cfg a) ∧
    ∀ a b, romM t.cfg a b = romM s.cfg a b) ∧
  (∀ s t, step s = .next t → t.cfg = s.cfg ∧ (∀ a, romRC t.cfg a = romRC s.cfg a) ∧
    ∀ a b, romM t.cfg a b = romM s.cfg a b)

/-! ## Field arithmetic -/

/-- 40_field_arithmetic.md R111. In the spec: R111 general knowledge. -/
def Obligations.FieldAddition : Prop :=
  ∀ p : Nat, p.Prime → ∀ a < p, ∀ b < p,
    fadd p a b = (a + b) % p ∧
    (a + b < p → fadd p a b = a + b) ∧ (p ≤ a + b → fadd p a b = a + b - p) ∧ fadd p a b < p ∧
    fadd p a b = fadd p b a ∧ (∀ d < p, fadd p (fadd p a b) d = fadd p a (fadd p b d)) ∧ fadd p a 0 = a ∧
    fadd p a ((p - a) % p) = 0 ∧ (∀ d < p, fadd p a d = 0 → d = (p - a) % p)

/-- 40_field_arithmetic.md R112. In the spec: R112 general knowledge. -/
def Obligations.FieldMultiplication : Prop :=
  ∀ p : Nat, p.Prime → ∀ a < p, ∀ b < p, ∀ d < p,
    fmul p a b = (a * b) % p ∧ fmul p a b < p ∧ fmul p a b = fmul p b a ∧
    fmul p (fmul p a b) d = fmul p a (fmul p b d) ∧ fmul p a (fadd p b d) = fadd p (fmul p a b) (fmul p a d) ∧
    fmul p a 1 = a ∧ fmul p a 0 = 0

/-- 40_field_arithmetic.md R113. In the spec: R113 general knowledge. -/
def Obligations.FieldPower : Prop :=
  ∀ p : Nat, p.Prime → ∀ a < p,
    (∀ e, fpow p a e = a ^ e % p) ∧ fpow p a 0 = 1 ∧ (∀ e, 1 ≤ e → fpow p 0 e = 0) ∧
    (∀ e, fpow p a (e + 1) = fmul p (fpow p a e) a) ∧
    fpow p a 5 = fmul p (fmul p (fmul p a a) (fmul p a a)) a

/-- 40_field_arithmetic.md R114: the inverse, total, with 0 sent to 0. In the spec: R114 decision D13. Log entry 25. -/
def Obligations.FieldInversion : Prop :=
  ∀ p : Nat, p.Prime → ∀ a < p,
    (0 < a → 0 < finv p a ∧ finv p a < p ∧ fmul p a (finv p a) = 1 ∧
      (∀ b < p, fmul p a b = 1 → b = finv p a) ∧ finv p a = fpow p a (p - 2)) ∧
    finv p 0 = 0 ∧ finv p (finv p a) = a ∧ finv p 1 = 1 ∧ finv p (p - 1) = p - 1

/-- 40_field_arithmetic.md R115: the dot product equals the nested sum of the products. In the spec: R115 derived. -/
def Obligations.DotProduct : Prop :=
  ∀ p : Nat, p.Prime → ∀ ms ss : List Nat,
    fdot p ms ss = (List.zipWith (fmul p) ms ss).foldr (fadd p) 0

/-- 42_sbox.md R142: POW5. -/
def Obligations.SboxPow5 : Prop :=
  ∀ c : Config, c.WellFormed → c.sbox = .pow5 →
    (∀ x < c.p, sboxMap c x = x ^ 5 % c.p) ∧ sboxMap c 0 = 0 ∧ sboxMap c 1 = 1 ∧ sboxMap c (c.p - 1) = c.p - 1

/-- 42_sbox.md R143: INV is a bijection and its own inverse. In the spec: R143 decision D14. Log entry 25. -/
def Obligations.SboxInversion : Prop :=
  ∀ c : Config, c.WellFormed → c.sbox = .inv →
    (∀ x < c.p, sboxMap c x < c.p ∧ sboxMap c (sboxMap c x) = x ∧ (0 < x → x * sboxMap c x % c.p = 1)) ∧
    sboxMap c 0 = 0 ∧ sboxMap c 1 = 1 ∧ sboxMap c (c.p - 1) = c.p - 1

/-- 43_mds.md R151: MIX is linear over the field. In the spec: R151 derived, general knowledge. -/
def Obligations.MixIsLinear : Prop :=
  ∀ c : Config, c.WellFormed → ∀ a b : List Nat, a.length = c.w → b.length = c.w →
    mixLayer c (List.zipWith (fadd c.p) a b) = List.zipWith (fadd c.p) (mixLayer c a) (mixLayer c b) ∧
    ∀ k, mixLayer c (a.map (fmul c.p k)) = (mixLayer c a).map (fmul c.p k)

/-! ## Micro-operations -/

/-- 41_round_constants.md R130: a legal LRC, its word, its addresses, and that it completes; K holds the window,
nothing else is written but the scheduler registers. -/
def Obligations.LrcLoadsWindow : Prop :=
  ∀ (s : State) (seg : BitVec 2) (rnd : BitVec 11), s.EngineEnabled → seg ≠ 0 →
    rnd.toNat < segCount s.cfg seg.toNat →
    (∃ w : CtlWord, encode (.lrc seg rnd) = .cw w ∧ w.toNat = 0x2000 + seg.toNat * 0x800 + rnd.toNat) ∧
    (∀ i < s.cfg.w, segBase s.cfg seg.toNat + rnd.toNat * s.cfg.w + i < nrc s.cfg) ∧
    ∃ ks : List Nat, ks.length = s.cfg.w ∧
      (∀ i < s.cfg.w, ks[i]? = s.cfg.rc[segBase s.cfg seg.toNat + rnd.toNat * s.cfg.w + i]?) ∧
      exec (.lrc seg rnd) s = .next (writePc { s with K := ks.map some } s.nextPos)

/-- 41_round_constants.md R131: ARC completes when every lane of S and K holds a value; lane i becomes (S[i] + K[i])
mod P, K is unchanged. -/
def Obligations.ArcAddsConstants : Prop :=
  encode .arc = .cw 0x4000 ∧
  ∀ (s : State) (vs ks : List Nat), s.EngineEnabled → vs.length = s.cfg.w → ks.length = s.cfg.w →
    s.S = vs.map some → s.K = ks.map some →
    ∃ new : List Nat, new.length = s.cfg.w ∧
      (∀ i < s.cfg.w, new[i]? = some ((vs.getD i 0 + ks.getD i 0) % s.cfg.p)) ∧
      exec .arc s = .next (writePc { s with S := new.map some } s.nextPos)

/-- 42_sbox.md R140: SBF completes when every lane of S holds a value; every lane goes through the S-box. -/
def Obligations.SbfMapsEveryLane : Prop :=
  encode .sbf = .cw 0x6000 ∧
  ∀ (s : State) (vs : List Nat), s.EngineEnabled → vs.length = s.cfg.w → s.S = vs.map some →
    ∃ new : List Nat, new.length = s.cfg.w ∧
      (∀ i < s.cfg.w, new[i]? = some (sboxMap s.cfg (vs.getD i 0))) ∧
      exec .sbf s = .next (writePc { s with S := new.map some } s.nextPos)

/-- 42_sbox.md R141: SBP completes when lane 0 holds a value, whatever the other lanes hold; they pass through. -/
def Obligations.SbpMapsLaneZero : Prop :=
  encode .sbp = .cw 0x8000 ∧
  ∀ (s : State) (v : Nat) (rest : List Reg), s.EngineEnabled → s.S = some v :: rest →
    exec .sbp s = .next (writePc { s with S := some (sboxMap s.cfg v) :: rest } s.nextPos)

/-- 43_mds.md R150: MDS completes when every lane of S holds a value; lane i becomes the sum of M[i][j] * S[j] over
the pre-step state, mod P. -/
def Obligations.MdsMultipliesByMatrix : Prop :=
  encode .mds = .cw 0xA000 ∧
  ∀ (s : State) (vs : List Nat), s.EngineEnabled → vs.length = s.cfg.w → s.S = vs.map some →
    ∃ new : List Nat, new.length = s.cfg.w ∧
      (∀ i < s.cfg.w, new[i]? =
        some ((∑ j ∈ Finset.range s.cfg.w, (s.cfg.m.getD i []).getD j 0 * vs.getD j 0) % s.cfg.p)) ∧
      exec .mds s = .next (writePc { s with S := new.map some } s.nextPos)

/-- 44_scheduler.md R165: NOP writes nothing, and the scheduler emits it in IDLE and DONE, so there the ENGINE's turn
leaves every register as it was. In the spec: R165 decision D11. Log entries 5, 20. -/
def Obligations.NopChangesNothing : Prop :=
  (∀ s : State, s.CodesLegal → exec .nop s = .next s) ∧
  (∀ s : State, (s.phase = 0 ∨ s.phase = 4) → s.emitted = some 0x0000) ∧
  (∀ s : State, s.CodesLegal → (s.phase = 0 ∨ s.phase = 4) → s.agenda = [] → step s = .next s)

/-- 41_round_constants.md R130, R131; 42_sbox.md R140, R141; 43_mds.md R150; 44_scheduler.md R165: what a
micro-operation that completes leaves unchanged. In the spec: R165 decision D11. Log entries 5, 7. -/
def Obligations.MicroOperationFrame : Prop :=
  ∀ (s t : State) (i : Instr), exec i s = .next t →
    ((i = .nop ∨ i = .arc ∨ i = .sbf ∨ i = .sbp ∨ i = .mds ∨ ∃ seg rnd, i = .lrc seg rnd) →
      t.cfg = s.cfg ∧ t.fault = s.fault ∧ t.fcause = s.fcause ∧ t.agenda = s.agenda) ∧
    ((i = .nop ∨ ∃ seg rnd, i = .lrc seg rnd) → t.S = s.S) ∧
    ((i = .nop ∨ i = .arc ∨ i = .sbf ∨ i = .sbp ∨ i = .mds) → t.K = s.K) ∧
    (i = .sbp → ∀ k, 1 ≤ k → t.S[k]? = s.S[k]?) ∧
    (i = .nop → t.phase = s.phase ∧ t.round = s.round ∧ t.step = s.step)

/-- 10_state.md R22: a micro-operation or a read of OUT that meets a register without a value is a fault of the model.
In the spec: R22 decision D4. Log entry 4. -/
def Obligations.ReadOfNoValueFaults : Prop :=
  (∀ (s : State) (k : Nat), s.EngineEnabled → k < s.cfg.w → laneOf s.S k = none →
    exec .arc s = .fault .readNoValue ∧ exec .sbf s = .fault .readNoValue ∧ exec .mds s = .fault .readNoValue) ∧
  (∀ s : State, s.EngineEnabled → laneOf s.S 0 = none → exec .sbp s = .fault .readNoValue) ∧
  (∀ (s : State) (k : Nat), s.EngineEnabled → k < s.cfg.w → laneOf s.K k = none →
    exec .arc s = .fault .readNoValue) ∧
  (∀ (s : State) (k : Nat), s.phase = 4 → s.fault = false → k < s.cfg.w → laneOf s.S k = none →
    readOut s = .fault .readNoValue)

/-- 30_encoding.md R90: the operands of a reserved LRC word are refused. In the spec: R90 decision D11. Log entries 6,
8. -/
def Obligations.ReservedLrcRefused : Prop :=
  ∀ (s : State) (seg : BitVec 2) (rnd : BitVec 11), s.EngineEnabled →
    (seg = 0 → exec (.lrc seg rnd) s = .refused (.reservedWord .segZero)) ∧
    (seg ≠ 0 → segCount s.cfg seg.toNat ≤ rnd.toNat →
      exec (.lrc seg rnd) s = .refused (.reservedWord .roundOutOfRange))

/-- 10_state.md R27: a state with a reserved PHASE code is refused, by every instruction and in either agent's turn;
reset is no instruction. In the spec: R27 decision D6. Log entries 8, 19. -/
def Obligations.ReservedPhaseRefused : Prop :=
  ∀ s : State, 5 ≤ s.phase.toNat →
    (∀ i, exec i s = .refused .reservedPhase) ∧ (s.NoResetNext → step s = .refused .reservedPhase)

/-! ## The scheduler -/

/-- 44_scheduler.md R161: the word the scheduler emits, in every phase and step. In the spec: R161 derived. -/
def Obligations.SchedulerWords : Prop :=
  ∀ s : State,
    ((s.phase = 0 ∨ s.phase = 4) → s.emitted = some 0x0000) ∧
    ((s.phase = 1 ∨ s.phase = 2 ∨ s.phase = 3) →
      (s.step = 0 → ∃ w, s.emitted = some w ∧ w.toNat = 0x2000 + s.phase.toNat * 0x800 + s.round.toNat) ∧
      (s.step = 1 → s.emitted = some 0x4000) ∧
      (s.step = 2 → s.emitted = some (if s.phase = 2 then 0x8000 else 0x6000)) ∧
      (s.step = 3 → s.emitted = some 0xA000))

/-- 44_scheduler.md R162: the scheduler never emits a reserved word. In the spec: R162 derived. -/
def Obligations.SchedulerNeverReserved : Prop :=
  ∀ s : State, s.Inv → ∃ w i, s.emitted = some w ∧ decodeCw s.cfg w = .ok i ∧ i.wellFormed s.cfg = true ∧
    ∀ seg rnd, i = .lrc seg rnd → 1 ≤ s.phase.toNat ∧ s.phase.toNat ≤ 3 ∧ seg.toNat = s.phase.toNat ∧
      rnd = s.round ∧ s.round.toNat < segCount s.cfg s.phase.toNat

/-- 44_scheduler.md R163: NEXT and AFTER. In the spec: R163 derived. -/
def Obligations.NextPosition : Prop :=
  ∀ (c : Config) (p : Phase) (r : BitVec 11) (s : BitVec 2), c.WellFormed →
    (s.toNat < 3 → nextPc c p r s = ⟨phaseCode p, r, BitVec.ofNat 2 (s.toNat + 1)⟩) ∧
    (s = 3 → r.toNat + 1 < phaseCount c p →
      ∃ r' : BitVec 11, nextPc c p r s = ⟨phaseCode p, r', 0⟩ ∧ r'.toNat = r.toNat + 1) ∧
    (s = 3 → phaseCount c p ≤ r.toNat + 1 → nextPc c p r s = ⟨phaseCode (afterPhase c p), 0, 0⟩) ∧
    (p ≠ .done → (phaseCode p).toNat < (phaseCode (afterPhase c p)).toNat) ∧
    (afterPhase c p ≠ .done → 0 < phaseCount c (afterPhase c p)) ∧
    (∀ q, (phaseCode p).toNat < (phaseCode q).toNat → (phaseCode q).toNat < (phaseCode (afterPhase c p)).toNat →
      phaseCount c q = 0)

/-- 44_scheduler.md R169: empty phases are skipped. In the spec: R169 derived. -/
def Obligations.EmptyPhasesSkipped : Prop :=
  ∀ c : Config, c.WellFormed →
    (∀ p, afterPhase c p ≠ .done → 0 < phaseCount c (afterPhase c p)) ∧
    (c.rp = 0 → 0 < c.rf → afterPhase c .idle = .full1 ∧ afterPhase c .full1 = .full2 ∧
      afterPhase c .full2 = .done) ∧
    (c.rf = 0 → 0 < c.rp → afterPhase c .idle = .part ∧ afterPhase c .part = .done) ∧
    (c.rf = 0 → c.rp = 0 → ∀ (s : State) (inp : List Lane), s.cfg = c → s.Ready → AcceptedInput c inp →
      ∃ t, exec (.start inp) s = .next t ∧ t.phase = 4 ∧ t.S = inp.map fun v => some v.toNat)

/-- 44_scheduler.md R163, R164: every micro-operation moves the scheduler one position on in its invocation. In the
spec: R163 derived; R164 derived. -/
def Obligations.PositionAdvancesByOne : Prop :=
  ∀ (c : Config) (p : Phase) (r : BitVec 11) (s : BitVec 2), c.WellFormed → phaseBusy p = true →
    r.toNat < phaseCount c p →
    ∃ q, phaseOf (nextPc c p r s).phase = some q ∧
      globalPosition c q (nextPc c p r s).round (nextPc c p r s).step = globalPosition c p r s + 1

/-- 44_scheduler.md R163: "`ROUND` is set to 0 at every phase change". In the spec: R163 derived. Log entry 5. -/
def Obligations.PhaseChangeRestartsRound : Prop :=
  ∀ s t : State, step s = .next t → t.phase ≠ s.phase → t.round = 0 ∧ t.step = 0

/-- 20_memory.md R62: the schedule does not depend on the data; two states that differ in S and K only move alike. In
the spec: R62 derived. Log entry 5. -/
def Obligations.ScheduleIgnoresData : Prop :=
  ∀ (s t s' t' : State) (regS regK : List Reg), s' = { s with S := regS, K := regK } →
    step s = .next t → step s' = .next t' →
    t'.phase = t.phase ∧ t'.round = t.round ∧ t'.step = t.step ∧ t'.fault = t.fault ∧ t'.fcause = t.fcause ∧
      t'.agenda = t.agenda

/-! ## Steps of the two agents -/

/-- 44_scheduler.md R166: when the ENGINE moves and no fault is set, the step is `exec` of the decoded word of the
scheduler; nothing is added around it but that the turn is taken from the agenda. In IDLE and DONE R166 gives ENGINE
no step: that it runs NOP there is the model's choice, log entry 20. In the spec: R166 decision D8. Log entries 5, 20.
-/
def Obligations.StepRunsEmittedWord : Prop :=
  ∀ (s : State) (w : CtlWord) (i : Instr), s.CodesLegal → s.fault = false → s.emitted = some w →
    decodeCw s.cfg w = .ok i →
    (s.agenda = [] → step s = exec i s) ∧
    (∀ rest, s.agenda = .engine :: rest → step s = exec i { s with agenda := rest })

/-- 44_scheduler.md R174: when HOST moves without a reset, the step is `exec` of the command on the port. In the spec:
R174 decision D3. Log entry 5. -/
def Obligations.StepRunsCommand : Prop :=
  ∀ (s : State) (d : PortDrive) (rest : List Turn) (i : Instr), s.agenda = .host d :: rest → d.rst = false →
    decodeCmd d.cmd d.inp = .ok i → step s = exec i { s with agenda := rest }

/-- 44_scheduler.md R172: NONE has no effect in any phase. In the spec: R172 decision D3. Log entries 5, 20. -/
def Obligations.NoneChangesNothing : Prop :=
  (∀ s : State, s.CodesLegal → exec .noCommand s = .next s) ∧
  (∀ (s : State) (d : PortDrive) (rest : List Turn), s.CodesLegal → s.agenda = .host d :: rest → d.rst = false →
    d.cmd = 0 → step s = .next { s with agenda := rest })

/-- 44_scheduler.md R170: START, in every phase and with every operand of W lanes. In the spec: R170 decision D3. -/
def Obligations.StartBeginsInvocation : Prop :=
  ∀ (s : State) (inp : List Lane), s.CodesLegal → inp.length = s.cfg.w →
    (s.fault = true → exec (.start inp) s = .next s) ∧
    (s.fault = false → (s.phase = 1 ∨ s.phase = 2 ∨ s.phase = 3) →
      exec (.start inp) s = .next { s with fault := true, fcause := 1 }) ∧
    (s.fault = false → (s.phase = 0 ∨ s.phase = 4) → (∃ v ∈ inp, s.cfg.p ≤ v.toNat) →
      exec (.start inp) s = .next { s with fault := true, fcause := 2 }) ∧
    (s.fault = false → (s.phase = 0 ∨ s.phase = 4) → (∀ v ∈ inp, v.toNat < s.cfg.p) →
      ∃ t, exec (.start inp) s = .next t ∧
        t = { s with
          S := inp.map fun v => some v.toNat
          K := List.replicate s.cfg.w none
          phase := if 0 < half s.cfg then 1 else if 0 < s.cfg.rp then 2 else 4
          round := 0
          step := 0 } ∧
        (0 < half s.cfg + s.cfg.rp → busyFlag t = true ∧ doneFlag t = false))

/-- 44_scheduler.md R171: ACK, in every phase. In the spec: R171 decision D3. -/
def Obligations.AckReleasesResult : Prop :=
  ∀ s : State, s.CodesLegal →
    (s.fault = true → exec .ack s = .next s) ∧
    (s.fault = false → s.phase = 4 → ∃ t, exec .ack s = .next t ∧ doneFlag t = false ∧
      t = { s with
        S := List.replicate s.cfg.w none
        K := List.replicate s.cfg.w none
        phase := 0
        round := 0
        step := 0 }) ∧
    (s.fault = false → s.phase ≠ 4 → exec .ack s = .next { s with fault := true, fcause := 1 })

/-- 60_exceptions.md R214, 44_scheduler.md R170, R171: what a command that completes leaves unchanged: never the
configuration or the agenda, and, where it raises FAULT, nothing but FAULT and FCAUSE is written. In the spec: R214
decision D8; R170 decision D3; R171 decision D3. Log entry 5. -/
def Obligations.CommandFrame : Prop :=
  ∀ (s t : State) (i : Instr), exec i s = .next t →
    (i = .noCommand → t = s) ∧
    ((i = .ack ∨ ∃ inp, i = .start inp) → t.cfg = s.cfg ∧ t.agenda = s.agenda ∧
      (t.fault = s.fault → t.fcause = s.fcause) ∧
      (t.fault ≠ s.fault →
        t.S = s.S ∧ t.K = s.K ∧ t.phase = s.phase ∧ t.round = s.round ∧ t.step = s.step ∧ s.fault = false))

/-- 60_exceptions.md R215: the three causes of BAD_CMD. In the spec: R215 decision D8. Log entry 5. -/
def Obligations.BadCommandFaults : Prop :=
  (∀ (s : State) (inp : List Lane), s.EngineEnabled →
    exec (.start inp) s = .next { s with fault := true, fcause := 1 }) ∧
  (∀ s : State, s.CodesLegal → s.fault = false → s.phase ≠ 4 →
    exec .ack s = .next { s with fault := true, fcause := 1 }) ∧
  (∀ (s : State) (d : PortDrive) (rest : List Turn), s.CodesLegal → s.fault = false → s.agenda = .host d :: rest →
    d.rst = false → d.cmd = 3 → step s = .next { s with fault := true, fcause := 1, agenda := rest })

/-- 60_exceptions.md R216: NONCANON_IN. In the spec: R216 decision D8. -/
def Obligations.NonCanonicalStartFaults : Prop :=
  ∀ (s : State) (inp : List Lane) (v : Lane), s.Ready → inp.length = s.cfg.w → v ∈ inp → s.cfg.p ≤ v.toNat →
    exec (.start inp) s = .next { s with fault := true, fcause := 2 }

/-- 60_exceptions.md R218: with FAULT = 1 nothing changes until reset, OUT has no value, STATUS shows FAULT and
FCAUSE, and reset clears both. In the spec: R218 decision D8. Log entries 5, 24. -/
def Obligations.FaultHaltsUntilReset : Prop :=
  ∀ s : State, s.CodesLegal → s.fault = true →
    (∀ i, exec i s = .next s) ∧
    (s.agenda = [] → step s = .next s) ∧
    (∀ rest, s.agenda = .engine :: rest → step s = .next { s with agenda := rest }) ∧
    (∀ d rest, s.agenda = .host d :: rest → d.rst = false → step s = .next { s with agenda := rest }) ∧
    (∀ d rest, s.agenda = .host d :: rest → d.rst = true → ∃ t, step s = .next t ∧ t.fault = false ∧ t.fcause = 0) ∧
    readOut s = .refused .outNoValue ∧
    (statusWord s).extractLsb' 2 1 = 1 ∧ (statusWord s).extractLsb' 3 2 = s.fcause

/-- 10_state.md R36: the registers after reset, for every well-formed configuration and so for this hardware's. In the
spec: R36 decision D9. Log entries 1, 2. -/
def Obligations.ResetRegisters : Prop :=
  (∀ (c : Config) (h : c.WellFormed), (State.resetWith c h).phase = 0 ∧ (State.resetWith c h).round = 0 ∧
    (State.resetWith c h).step = 0 ∧ (State.resetWith c h).fault = false ∧ (State.resetWith c h).fcause = 0 ∧
    (State.resetWith c h).S = List.replicate c.w none ∧ (State.resetWith c h).K = List.replicate c.w none ∧
    (State.resetWith c h).cfg = c) ∧
  State.reset = State.resetWith Config.hardware Config.hardware_wellFormed ∧ Config.hardware.w = 5

/-- 70_reset_and_hazards.md R240: reset from any state, whatever command stands beside it, and nothing else clears
FAULT. In the spec: R240 decision D9. Log entries 5, 19. -/
def Obligations.ResetFromAnyState : Prop :=
  (∀ (s : State) (d : PortDrive) (rest : List Turn), s.agenda = .host d :: rest → d.rst = true →
    step s = .next
      { cfg := s.cfg
        wf := s.wf
        S := List.replicate s.cfg.w none
        K := List.replicate s.cfg.w none
        phase := 0
        round := 0
        step := 0
        fault := false
        fcause := 0
        agenda := rest }) ∧
  (∀ s t : State, step s = .next t → s.fault = true → t.fault = false →
    ∃ d rest, s.agenda = .host d :: rest ∧ d.rst = true)

/-- 20_memory.md R65: START and ACK write S only in IDLE or DONE, the ENGINE only while busy. In the spec: R65
derived. Log entry 5. -/
def Obligations.AgentsNeverShareS : Prop :=
  ∀ s t : State, step s = .next t → t.S ≠ s.S →
    ((s.agenda = [] ∨ ∃ rest, s.agenda = .engine :: rest) → s.phase = 1 ∨ s.phase = 2 ∨ s.phase = 3) ∧
    (∀ d rest, s.agenda = .host d :: rest → d.rst = false → s.phase = 0 ∨ s.phase = 4)

/-! ## The host's view -/

/-- 30_encoding.md R93: the bits of STATUS, and its words without a fault. In the spec: R93 decision D3, derived. -/
def Obligations.StatusBits : Prop :=
  ∀ s : State,
    (statusWord s).extractLsb' 0 1 = (if s.phase = 1 ∨ s.phase = 2 ∨ s.phase = 3 then 1 else 0) ∧
    (statusWord s).extractLsb' 1 1 = (if s.phase = 4 then 1 else 0) ∧
    (statusWord s).extractLsb' 2 1 = (if s.fault then 1 else 0) ∧
    (statusWord s).extractLsb' 3 2 = s.fcause ∧ (statusWord s).extractLsb' 5 3 = 0 ∧
    ¬ (busyFlag s = true ∧ doneFlag s = true) ∧
    (s.fault = false → s.fcause = 0 → s.CodesLegal → statusWord s =
      if s.phase = 0 then 0x00 else if s.phase = 4 then 0x02 else 0x01)

/-- 10_state.md R33: OUT carries the result only in DONE with FAULT = 0. In the spec: R33 decision D7. Log entry 12. -/
def Obligations.OutOnlyInDone : Prop :=
  (∀ s : State, (s.phase ≠ 4 ∨ s.fault = true) → readOut s = .refused .outNoValue) ∧
  (∀ (s : State) (vs : List Nat), s.phase = 4 → s.fault = false → vs.length = s.cfg.w → s.S = vs.map some →
    readOut s = .next (vs.map (BitVec.ofNat 256)))

/-! ## Whole-machine claims -/

/-- 10_state.md R35, R36: the invariant holds after reset. In the spec: R35 derived; R36 decision D9. Log entries 1,
2. -/
def Obligations.InvariantAtReset : Prop :=
  (∀ (c : Config) (h : c.WellFormed), (State.resetWith c h).Inv) ∧ State.reset.Inv ∧ State.reset.cfg.WellFormed

/-- 10_state.md R35: every step of either agent keeps the invariant and the configuration. In the spec: R35 derived.
Log entry 5. -/
def Obligations.InvariantKept : Prop :=
  ∀ s t : State, s.Inv → step s = .next t → t.Inv ∧ t.cfg = s.cfg

/-- 60_exceptions.md R217, 10_state.md R35: in a state that meets the invariant no step stops; no micro-operation ever
reads ⊥, and no reserved word is met. The spec gives ENGINE no step with FAULT = 1 (60_exceptions.md R218) and none in
IDLE and DONE (44_scheduler.md R166): that its turn answers a next state there is the model's choice, log entries 24
and 20. In the spec: R35 derived; R218 decision D8; R166 decision D8. Log entries 5, 20, 24. -/
def Obligations.NoStepStops : Prop :=
  ∀ s : State, s.Inv → (∀ turn ∈ s.agenda, turn.Drivable s.cfg) → ∃ t, step s = .next t

/-- 44_scheduler.md R176: after an accepted START the engine is in DONE after exactly 4*(RF+RP) engine steps, and busy
before. In the spec: R176 derived. Log entry 5. -/
def Obligations.CompletesInExactSteps : Prop :=
  ∀ (s : State) (inp : List Lane), s.Ready → s.agenda = [] → AcceptedInput s.cfg inp →
    ∃ t0, exec (.start inp) s = .next t0 ∧
      (∀ n < 4 * (s.cfg.rf + s.cfg.rp), ∃ u, core.run n t0 = .next u ∧ busyFlag u = true) ∧
      ∃ t, core.run (4 * (s.cfg.rf + s.cfg.rp)) t0 = .next t ∧ doneFlag t = true ∧ t.fault = false

/-- 44_scheduler.md R167: the S the host reads in DONE is `permute` of the input. In the spec: R167 derived. Log entry
5. -/
def Obligations.ComputesPermutation : Prop :=
  ∀ (s : State) (inp : List Lane), s.Ready → s.agenda = [] → AcceptedInput s.cfg inp →
    ∃ t0 t, exec (.start inp) s = .next t0 ∧ core.run (4 * (s.cfg.rf + s.cfg.rp)) t0 = .next t ∧
      t.phase = 4 ∧ t.S = (permute s.cfg (inp.map (·.toNat))).map some ∧
      readOut t = .next ((permute s.cfg (inp.map (·.toNat))).map (BitVec.ofNat 256))

/-- 44_scheduler.md R168(b): the states at the first two phase boundaries. Log entry 5. -/
def Obligations.PhaseBoundaryStates : Prop :=
  ∀ (s : State) (inp : List Lane), s.Ready → s.agenda = [] → AcceptedInput s.cfg inp →
    ∃ t0, exec (.start inp) s = .next t0 ∧
      (∃ u, core.run (4 * half s.cfg) t0 = .next u ∧ u.S = (afterFull1 s.cfg (inp.map (·.toNat))).map some) ∧
      ∃ u, core.run (4 * (half s.cfg + s.cfg.rp)) t0 = .next u ∧
        u.S = (afterPartial s.cfg (inp.map (·.toNat))).map some

/-- 44_scheduler.md R164: between START and DONE the scheduler emits exactly the words of PERMUTE, for every input. In
the spec: R164 derived. Log entry 5. -/
def Obligations.EmitsPermuteProgram : Prop :=
  ∀ (s : State) (inp : List Lane), s.Ready → s.agenda = [] → AcceptedInput s.cfg inp →
    (permuteProgram s.cfg).length = 4 * (s.cfg.rf + s.cfg.rp) ∧
    ∃ t0, exec (.start inp) s = .next t0 ∧
      ∀ n < 4 * (s.cfg.rf + s.cfg.rp), ∃ u w i, core.run n t0 = .next u ∧ u.emitted = some w ∧
        decodeCw u.cfg w = .ok i ∧ (permuteProgram s.cfg)[n]? = some i

/-- 70_reset_and_hazards.md R251: how often each micro-operation runs in one invocation. In the spec: R251 derived. -/
def Obligations.WorkPerInvocation : Prop :=
  ∀ c : Config, c.WellFormed →
    (permuteProgram c).length = 4 * (c.rf + c.rp) ∧ (permuteProgram c).count .arc = c.rf + c.rp ∧
    (permuteProgram c).count .sbf = c.rf ∧ (permuteProgram c).count .sbp = c.rp ∧
    (permuteProgram c).count .mds = c.rf + c.rp

/-- 10_state.md R34, 00_scope.md R8: nothing of an earlier invocation survives START; two ready engines of one
configuration and agenda, whatever their registers hold, are the same engine after it. -/
def Obligations.NothingSurvivesStart : Prop :=
  ∀ (s s' : State) (inp : List Lane), s.Ready → s'.Ready → s'.cfg = s.cfg → s'.fcause = s.fcause →
    s'.agenda = s.agenda → AcceptedInput s.cfg inp →
    ∃ t, exec (.start inp) s = .next t ∧ exec (.start inp) s' = .next t

/-! ## The wrapper -/

/-- 60_exceptions.md R210, 45_host_wrapper.md R192, R194, R196, R199: when RUN returns each error, in the order of
precedence, with no engine register changed; for any state of the engine. That RUN returns an error also on an engine
that is busy or has FAULT = 1, where R191 gives RUN no meaning, is the model's choice, log entry 15. In the spec: R196
decision D12; R199 derived. Log entries 15, 16. -/
def Obligations.RunErrors : Prop :=
  ∀ (s : State) (input : List Byte) (budget : BitVec 64),
    (input.length ≠ 32 → runUnit input budget s = .next (.err .wrongLength, s)) ∧
    (input.length = 32 → budget.toNat < s.cfg.w * 10 → runUnit input budget s = .next (.err .outOfBudget, s)) ∧
    (input.length = 32 → s.cfg.w * 10 ≤ budget.toNat → s.cfg.p ≤ unbe32 input → s.cfg.noncanon = .reject →
      runUnit input budget s = .next (.err .invalidFieldEncoding, s))

/-- 45_host_wrapper.md R191, R193, R195, R197, R198: on an input that passes the checks RUN returns the cost and lane
0 of the permutation of the broadcast element, and leaves the engine in IDLE with S and K invalid. Log entries 15, 16.
-/
def Obligations.RunSucceeds : Prop :=
  ∀ (s : State) (input : List Byte) (budget : BitVec 64) (v : Nat), s.Ready →
    input.length = 32 → s.cfg.w * 10 ≤ budget.toNat →
    ((unbe32 input < s.cfg.p ∧ v = unbe32 input) ∨
      (s.cfg.p ≤ unbe32 input ∧ s.cfg.noncanon = .reduce ∧ v = unbe32 input % s.cfg.p)) →
    ∃ y, (permute s.cfg (List.replicate s.cfg.w v))[0]? = some y ∧ y < s.cfg.p ∧
      runUnit input budget s = .next (.ok (s.cfg.w * 10) (be32 y),
        { s with
          S := List.replicate s.cfg.w none
          K := List.replicate s.cfg.w none
          phase := 0
          round := 0
          step := 0 })
end

