-- ==== Sys2Proof/Laws/Config.lean ====
section
/-! SUPPORT. What a well-formed configuration gives. -/

namespace Sys2Proof

open Machine

theorem Config.WellFormed.pos {c : Config} (h : c.WellFormed) : 0 < c.p := h.prime.pos

/-- The S-box maps into 0 .. P-1 (00_scope.md R4(g)). -/
theorem Machine.sboxMap_lt {c : Config} (h : c.WellFormed) (x : Nat) : sboxMap c x < c.p := by
  have hp := h.pos
  unfold sboxMap
  split
  · exact Nat.mod_lt _ hp
  · unfold finv
    split
    · exact hp
    · exact Nat.mod_lt _ hp
  · exact Nat.mod_lt _ hp

end Sys2Proof
end

