-- ==== Sys2Proof/Laws/Decode.lean ====
section
/-! SUPPORT. The fields of a control word and the word of its fields (30_encoding.md R86). -/

namespace Sys2Proof

theorem cwOf_getLsbD (op : BitVec 3) (seg : BitVec 2) (rnd : BitVec 11) (k : Nat) :
    (cwOf op seg rnd).getLsbD k =
      if k < 11 then rnd.getLsbD k else if k - 11 < 2 then seg.getLsbD (k - 11) else op.getLsbD (k - 11 - 2) := by
  have h1 : (cwOf op seg rnd).getLsbD k = if k < 11 then rnd.getLsbD k else (op ++ seg).getLsbD (k - 11) :=
    BitVec.getLsbD_append
  rw [h1, BitVec.getLsbD_append]

@[simp] theorem cwOp_cwOf (op : BitVec 3) (seg : BitVec 2) (rnd : BitVec 11) : cwOp (cwOf op seg rnd) = op := by
  apply BitVec.eq_of_getLsbD_eq
  intro k hk
  rw [cwOp, BitVec.getLsbD_extractLsb', cwOf_getLsbD, if_neg (by omega), if_neg (by omega),
    show 13 + k - 11 - 2 = k by omega]
  simp [hk]

@[simp] theorem cwSeg_cwOf (op : BitVec 3) (seg : BitVec 2) (rnd : BitVec 11) : cwSeg (cwOf op seg rnd) = seg := by
  apply BitVec.eq_of_getLsbD_eq
  intro k hk
  rw [cwSeg, BitVec.getLsbD_extractLsb', cwOf_getLsbD, if_neg (by omega), if_pos (by omega),
    show 11 + k - 11 = k by omega]
  simp [hk]

@[simp] theorem cwRnd_cwOf (op : BitVec 3) (seg : BitVec 2) (rnd : BitVec 11) : cwRnd (cwOf op seg rnd) = rnd := by
  apply BitVec.eq_of_getLsbD_eq
  intro k hk
  rw [cwRnd, BitVec.getLsbD_extractLsb', cwOf_getLsbD, if_pos (by omega), Nat.zero_add]
  simp [hk]

/-- A control word is the word of its three fields. -/
theorem cwOf_fields (w : CtlWord) : cwOf (cwOp w) (cwSeg w) (cwRnd w) = w := by
  apply BitVec.eq_of_getLsbD_eq
  intro k hk
  rw [cwOf_getLsbD, cwOp, cwSeg, cwRnd, BitVec.getLsbD_extractLsb', BitVec.getLsbD_extractLsb',
    BitVec.getLsbD_extractLsb']
  split
  · next h => simp [h]
  · split
    · next h => rw [show 11 + (k - 11) = k by omega]; simp [h]
    · rw [show 13 + (k - 11 - 2) = k by omega, decide_eq_true (by omega), Bool.true_and]

/-- An operation without fields is read only from a word whose SEG and RND are zero. -/
theorem noFields_eq_ok {w : CtlWord} {i j : Instr} (h : noFields w i = .ok j) : j = i ∧ cwSeg w = 0 ∧ cwRnd w = 0 := by
  unfold noFields at h
  split at h
  · next hw =>
    have bit : ∀ k < 13, w.getLsbD k = false := by
      intro k hk
      have := congrArg (·.getLsbD k) hw
      simpa [hk] using this
    refine ⟨by cases h; rfl, ?_, ?_⟩ <;> apply BitVec.eq_of_getLsbD_eq <;> intro k hk
    · rw [cwSeg, BitVec.getLsbD_extractLsb', bit _ (by omega)]; simp
    · rw [cwRnd, BitVec.getLsbD_extractLsb', bit _ (by omega)]; simp
  · cases h

/-- What the decoder answers on a word of the format decoder, once for all. -/
theorem decodeCw_of_format {c : Config} {w : CtlWord} {i : Instr} (h : decodeFormat w = .ok i)
    (hr : ∀ seg rnd, i = .lrc seg rnd → rnd.toNat < Machine.segCount c seg.toNat) : decodeCw c w = .ok i := by
  unfold decodeCw
  rw [h]
  split
  · next seg rnd he => cases he; exact if_pos (hr _ _ rfl)
  · rfl

end Sys2Proof
end

