-- ==== Sys2Proof/Laws/State.lean ====
section
/-! SUPPORT. One lemma per field and update of State. -/

namespace Sys2Proof.Machine

@[simp] theorem writeS_cfg (s : State) (vs : List Nat) : (writeS s vs).cfg = s.cfg := rfl
@[simp] theorem writeS_S (s : State) (vs : List Nat) : (writeS s vs).S = vs.map some := rfl
@[simp] theorem writeS_K (s : State) (vs : List Nat) : (writeS s vs).K = s.K := rfl
@[simp] theorem writeS_phase (s : State) (vs : List Nat) : (writeS s vs).phase = s.phase := rfl
@[simp] theorem writeS_round (s : State) (vs : List Nat) : (writeS s vs).round = s.round := rfl
@[simp] theorem writeS_step (s : State) (vs : List Nat) : (writeS s vs).step = s.step := rfl
@[simp] theorem writeS_fault (s : State) (vs : List Nat) : (writeS s vs).fault = s.fault := rfl
@[simp] theorem writeS_fcause (s : State) (vs : List Nat) : (writeS s vs).fcause = s.fcause := rfl
@[simp] theorem writeS_agenda (s : State) (vs : List Nat) : (writeS s vs).agenda = s.agenda := rfl

@[simp] theorem writeK_cfg (s : State) (vs : List Nat) : (writeK s vs).cfg = s.cfg := rfl
@[simp] theorem writeK_S (s : State) (vs : List Nat) : (writeK s vs).S = s.S := rfl
@[simp] theorem writeK_K (s : State) (vs : List Nat) : (writeK s vs).K = vs.map some := rfl
@[simp] theorem writeK_phase (s : State) (vs : List Nat) : (writeK s vs).phase = s.phase := rfl
@[simp] theorem writeK_round (s : State) (vs : List Nat) : (writeK s vs).round = s.round := rfl
@[simp] theorem writeK_step (s : State) (vs : List Nat) : (writeK s vs).step = s.step := rfl
@[simp] theorem writeK_fault (s : State) (vs : List Nat) : (writeK s vs).fault = s.fault := rfl
@[simp] theorem writeK_fcause (s : State) (vs : List Nat) : (writeK s vs).fcause = s.fcause := rfl
@[simp] theorem writeK_agenda (s : State) (vs : List Nat) : (writeK s vs).agenda = s.agenda := rfl

@[simp] theorem writeLane0_cfg (s : State) (v : Nat) : (writeLane0 s v).cfg = s.cfg := rfl
@[simp] theorem writeLane0_S (s : State) (v : Nat) : (writeLane0 s v).S = s.S.set 0 (some v) := rfl
@[simp] theorem writeLane0_K (s : State) (v : Nat) : (writeLane0 s v).K = s.K := rfl
@[simp] theorem writeLane0_phase (s : State) (v : Nat) : (writeLane0 s v).phase = s.phase := rfl
@[simp] theorem writeLane0_round (s : State) (v : Nat) : (writeLane0 s v).round = s.round := rfl
@[simp] theorem writeLane0_step (s : State) (v : Nat) : (writeLane0 s v).step = s.step := rfl
@[simp] theorem writeLane0_fault (s : State) (v : Nat) : (writeLane0 s v).fault = s.fault := rfl
@[simp] theorem writeLane0_fcause (s : State) (v : Nat) : (writeLane0 s v).fcause = s.fcause := rfl
@[simp] theorem writeLane0_agenda (s : State) (v : Nat) : (writeLane0 s v).agenda = s.agenda := rfl

@[simp] theorem dropK_cfg (s : State) : (dropK s).cfg = s.cfg := rfl
@[simp] theorem dropK_S (s : State) : (dropK s).S = s.S := rfl
@[simp] theorem dropK_K (s : State) : (dropK s).K = noLanes s.cfg.w := rfl
@[simp] theorem dropK_phase (s : State) : (dropK s).phase = s.phase := rfl
@[simp] theorem dropK_round (s : State) : (dropK s).round = s.round := rfl
@[simp] theorem dropK_step (s : State) : (dropK s).step = s.step := rfl
@[simp] theorem dropK_fault (s : State) : (dropK s).fault = s.fault := rfl
@[simp] theorem dropK_fcause (s : State) : (dropK s).fcause = s.fcause := rfl
@[simp] theorem dropK_agenda (s : State) : (dropK s).agenda = s.agenda := rfl

@[simp] theorem dropAll_cfg (s : State) : (dropAll s).cfg = s.cfg := rfl
@[simp] theorem dropAll_S (s : State) : (dropAll s).S = noLanes s.cfg.w := rfl
@[simp] theorem dropAll_K (s : State) : (dropAll s).K = noLanes s.cfg.w := rfl
@[simp] theorem dropAll_phase (s : State) : (dropAll s).phase = s.phase := rfl
@[simp] theorem dropAll_round (s : State) : (dropAll s).round = s.round := rfl
@[simp] theorem dropAll_step (s : State) : (dropAll s).step = s.step := rfl
@[simp] theorem dropAll_fault (s : State) : (dropAll s).fault = s.fault := rfl
@[simp] theorem dropAll_fcause (s : State) : (dropAll s).fcause = s.fcause := rfl
@[simp] theorem dropAll_agenda (s : State) : (dropAll s).agenda = s.agenda := rfl

@[simp] theorem writePc_cfg (s : State) (pc : Pc) : (writePc s pc).cfg = s.cfg := rfl
@[simp] theorem writePc_S (s : State) (pc : Pc) : (writePc s pc).S = s.S := rfl
@[simp] theorem writePc_K (s : State) (pc : Pc) : (writePc s pc).K = s.K := rfl
@[simp] theorem writePc_phase (s : State) (pc : Pc) : (writePc s pc).phase = pc.phase := rfl
@[simp] theorem writePc_round (s : State) (pc : Pc) : (writePc s pc).round = pc.round := rfl
@[simp] theorem writePc_step (s : State) (pc : Pc) : (writePc s pc).step = pc.step := rfl
@[simp] theorem writePc_fault (s : State) (pc : Pc) : (writePc s pc).fault = s.fault := rfl
@[simp] theorem writePc_fcause (s : State) (pc : Pc) : (writePc s pc).fcause = s.fcause := rfl
@[simp] theorem writePc_agenda (s : State) (pc : Pc) : (writePc s pc).agenda = s.agenda := rfl

@[simp] theorem writeAgenda_cfg (s : State) (a : List Turn) : (writeAgenda s a).cfg = s.cfg := rfl
@[simp] theorem writeAgenda_S (s : State) (a : List Turn) : (writeAgenda s a).S = s.S := rfl
@[simp] theorem writeAgenda_K (s : State) (a : List Turn) : (writeAgenda s a).K = s.K := rfl
@[simp] theorem writeAgenda_phase (s : State) (a : List Turn) : (writeAgenda s a).phase = s.phase := rfl
@[simp] theorem writeAgenda_round (s : State) (a : List Turn) : (writeAgenda s a).round = s.round := rfl
@[simp] theorem writeAgenda_step (s : State) (a : List Turn) : (writeAgenda s a).step = s.step := rfl
@[simp] theorem writeAgenda_fault (s : State) (a : List Turn) : (writeAgenda s a).fault = s.fault := rfl
@[simp] theorem writeAgenda_fcause (s : State) (a : List Turn) : (writeAgenda s a).fcause = s.fcause := rfl
@[simp] theorem writeAgenda_agenda (s : State) (a : List Turn) : (writeAgenda s a).agenda = a := rfl

@[simp] theorem resetRegs_cfg (s : State) : (resetRegs s).cfg = s.cfg := rfl
@[simp] theorem resetRegs_S (s : State) : (resetRegs s).S = noLanes s.cfg.w := rfl
@[simp] theorem resetRegs_K (s : State) : (resetRegs s).K = noLanes s.cfg.w := rfl
@[simp] theorem resetRegs_phase (s : State) : (resetRegs s).phase = 0 := rfl
@[simp] theorem resetRegs_round (s : State) : (resetRegs s).round = 0 := rfl
@[simp] theorem resetRegs_step (s : State) : (resetRegs s).step = 0 := rfl
@[simp] theorem resetRegs_fault (s : State) : (resetRegs s).fault = false := rfl
@[simp] theorem resetRegs_fcause (s : State) : (resetRegs s).fcause = 0 := rfl
@[simp] theorem resetRegs_agenda (s : State) : (resetRegs s).agenda = s.agenda := rfl

@[simp] theorem advance_cfg (p : Phase) (s : State) : (advance p s).cfg = s.cfg := rfl
@[simp] theorem advance_S (p : Phase) (s : State) : (advance p s).S = s.S := rfl
@[simp] theorem advance_K (p : Phase) (s : State) : (advance p s).K = s.K := rfl
@[simp] theorem advance_phase (p : Phase) (s : State) : (advance p s).phase = (nextPc s.cfg p s.round s.step).phase := rfl
@[simp] theorem advance_round (p : Phase) (s : State) : (advance p s).round = (nextPc s.cfg p s.round s.step).round := rfl
@[simp] theorem advance_step (p : Phase) (s : State) : (advance p s).step = (nextPc s.cfg p s.round s.step).step := rfl
@[simp] theorem advance_fault (p : Phase) (s : State) : (advance p s).fault = s.fault := rfl
@[simp] theorem advance_fcause (p : Phase) (s : State) : (advance p s).fcause = s.fcause := rfl
@[simp] theorem advance_agenda (p : Phase) (s : State) : (advance p s).agenda = s.agenda := rfl

@[simp] theorem raiseFault_cfg (c : BitVec 2) (s : State) : (raiseFault c s).cfg = s.cfg := by
  unfold raiseFault; split <;> rfl
@[simp] theorem raiseFault_S (c : BitVec 2) (s : State) : (raiseFault c s).S = s.S := by
  unfold raiseFault; split <;> rfl
@[simp] theorem raiseFault_K (c : BitVec 2) (s : State) : (raiseFault c s).K = s.K := by
  unfold raiseFault; split <;> rfl
@[simp] theorem raiseFault_phase (c : BitVec 2) (s : State) : (raiseFault c s).phase = s.phase := by
  unfold raiseFault; split <;> rfl
@[simp] theorem raiseFault_round (c : BitVec 2) (s : State) : (raiseFault c s).round = s.round := by
  unfold raiseFault; split <;> rfl
@[simp] theorem raiseFault_step (c : BitVec 2) (s : State) : (raiseFault c s).step = s.step := by
  unfold raiseFault; split <;> rfl
@[simp] theorem raiseFault_agenda (c : BitVec 2) (s : State) : (raiseFault c s).agenda = s.agenda := by
  unfold raiseFault; split <;> rfl

@[simp] theorem raiseFault_fault (c : BitVec 2) (s : State) : (raiseFault c s).fault = true := by
  unfold raiseFault; split <;> simp_all

theorem raiseFault_fcause (c : BitVec 2) (s : State) :
    (raiseFault c s).fcause = if s.fault then s.fcause else c := by
  unfold raiseFault; split <;> rfl

@[simp] theorem resetWith_cfg (c : Config) (h : c.WellFormed) : (State.resetWith c h).cfg = c := rfl
@[simp] theorem resetWith_S (c : Config) (h : c.WellFormed) : (State.resetWith c h).S = noLanes c.w := rfl
@[simp] theorem resetWith_K (c : Config) (h : c.WellFormed) : (State.resetWith c h).K = noLanes c.w := rfl
@[simp] theorem resetWith_phase (c : Config) (h : c.WellFormed) : (State.resetWith c h).phase = 0 := rfl
@[simp] theorem resetWith_round (c : Config) (h : c.WellFormed) : (State.resetWith c h).round = 0 := rfl
@[simp] theorem resetWith_step (c : Config) (h : c.WellFormed) : (State.resetWith c h).step = 0 := rfl
@[simp] theorem resetWith_fault (c : Config) (h : c.WellFormed) : (State.resetWith c h).fault = false := rfl
@[simp] theorem resetWith_fcause (c : Config) (h : c.WellFormed) : (State.resetWith c h).fcause = 0 := rfl
@[simp] theorem resetWith_agenda (c : Config) (h : c.WellFormed) : (State.resetWith c h).agenda = [] := rfl

end Sys2Proof.Machine
end

