-- ==== Sys2Proof/Laws/Ops.lean ====
section
/-! SUPPORT. What each shared operation can do, said once. -/

namespace Sys2Proof.Machine

@[simp] theorem phaseOf_phaseCode (p : Phase) : phaseOf (phaseCode p) = some p := by cases p <;> rfl

theorem phaseOf_eq_some_iff {code : BitVec 3} {p : Phase} : phaseOf code = some p ↔ code = phaseCode p := by
  constructor
  · intro h; revert code; cases p <;> decide
  · rintro rfl; simp

theorem phaseOf_of_le {code : BitVec 3} (h : code.toNat ≤ 4) : ∃ p, phaseOf code = some p := by
  have key : ∀ code : BitVec 3, code.toNat ≤ 4 → (phaseOf code).isSome = true := by decide
  exact Option.isSome_iff_exists.1 (key code h)

theorem phaseOf_busy {code : BitVec 3} (h : code = 1 ∨ code = 2 ∨ code = 3) :
    ∃ p, phaseOf code = some p ∧ phaseBusy p = true := by
  rcases h with rfl | rfl | rfl
  · exact ⟨.full1, rfl, rfl⟩
  · exact ⟨.part, rfl, rfl⟩
  · exact ⟨.full2, rfl, rfl⟩

theorem phaseOf_waiting {code : BitVec 3} (h : code = 0 ∨ code = 4) :
    ∃ p, phaseOf code = some p ∧ phaseBusy p = false := by
  rcases h with rfl | rfl
  · exact ⟨.idle, rfl, rfl⟩
  · exact ⟨.done, rfl, rfl⟩

theorem phaseBusy_iff (p : Phase) :
    phaseBusy p = true ↔ (phaseCode p = 1 ∨ phaseCode p = 2 ∨ phaseCode p = 3) := by cases p <;> decide

/-- The only way through `onLegal`. -/
theorem onLegal_next {s t : State} {k : Phase → Out} (h : onLegal s k = .next t) :
    ∃ p, s.phase = phaseCode p ∧ s.fcause ≠ 3 ∧ k p = .next t := by
  unfold onLegal at h
  split at h
  · cases h
  · next p hp =>
    split at h
    · cases h
    · next hc => exact ⟨p, phaseOf_eq_some_iff.1 hp, hc, h⟩

theorem onLegal_eq {s : State} {p : Phase} (hp : s.phase = phaseCode p) (hc : s.fcause ≠ 3) (k : Phase → Out) :
    onLegal s k = k p := by
  unfold onLegal
  rw [hp, phaseOf_phaseCode]
  exact if_neg hc

/-- The only ways through `onEngine`: halted, or busy without a fault. -/
theorem onEngine_next {s t : State} {k : Phase → Out} (h : onEngine s k = .next t) :
    (s.fault = true ∧ t = s) ∨
      (s.fault = false ∧ ∃ p, s.phase = phaseCode p ∧ phaseBusy p = true ∧ s.fcause ≠ 3 ∧ k p = .next t) := by
  obtain ⟨p, hp, hc, hk⟩ := onLegal_next h
  by_cases hf : s.fault = true
  · rw [if_pos hf] at hk; exact .inl ⟨hf, by simpa using hk.symm⟩
  · rw [if_neg hf] at hk
    split at hk
    · next hb => exact .inr ⟨by simpa using hf, p, hp, hb, hc, hk⟩
    · cases hk

theorem onEngine_eq {s : State} (h : s.EngineEnabled) (k : Phase → Out) :
    ∃ p, s.phase = phaseCode p ∧ phaseBusy p = true ∧ onEngine s k = k p := by
  obtain ⟨hf, hc, hb⟩ := h
  obtain ⟨p, hp, hbusy⟩ := phaseOf_busy hb
  have hp' := phaseOf_eq_some_iff.1 hp
  exact ⟨p, hp', hbusy, by simp [onEngine, onLegal_eq hp' hc, hf, hbusy]⟩

/-- The only ways through `onCommand`: halted, or no fault. -/
theorem onCommand_next {s t : State} {k : Phase → Out} (h : onCommand s k = .next t) :
    (s.fault = true ∧ t = s) ∨
      (s.fault = false ∧ ∃ p, s.phase = phaseCode p ∧ s.fcause ≠ 3 ∧ k p = .next t) := by
  obtain ⟨p, hp, hc, hk⟩ := onLegal_next h
  by_cases hf : s.fault = true
  · rw [if_pos hf] at hk; exact .inl ⟨hf, by simpa using hk.symm⟩
  · rw [if_neg hf] at hk; exact .inr ⟨by simpa using hf, p, hp, hc, hk⟩

theorem onCommand_eq {s : State} {p : Phase} (hp : s.phase = phaseCode p) (hc : s.fcause ≠ 3)
    (hf : s.fault = false) (k : Phase → Out) : onCommand s k = k p := by
  simp [onCommand, onLegal_eq hp hc, hf]

theorem withLanes_next {s t : State} {regs : List Reg} {k : List Nat → Out} (h : withLanes s regs k = .next t) :
    ∃ vs, readLanes s.cfg.w regs = some vs ∧ k vs = .next t := by
  unfold withLanes at h
  split at h
  · next vs hv => exact ⟨vs, hv, h⟩
  · cases h

theorem withRom_next {α : Type} {t : State} {words : Option α} {k : α → Out} (h : withRom words k = .next t) :
    ∃ v, words = some v ∧ k v = .next t := by
  unfold withRom at h
  split at h
  · next v => exact ⟨v, rfl, h⟩
  · cases h

/-- Gathering answers exactly the values of a list in which none is missing. -/
theorem gather_eq_some_iff {α : Type} (l : List (Option α)) (vs : List α) : gather l = some vs ↔ l = vs.map some := by
  induction l generalizing vs with
  | nil => cases vs <;> simp [gather]
  | cons o rest ih =>
    cases o with
    | none => cases vs <;> simp [gather]
    | some v =>
      cases vs with
      | nil => simp [gather]
      | cons w ws => simp [gather, ih, and_comm]

@[simp] theorem gather_map_some {α : Type} (vs : List α) : gather (vs.map some) = some vs :=
  (gather_eq_some_iff _ _).2 rfl

theorem gather_eq_none {α : Type} {l : List (Option α)} (h : none ∈ l) : gather l = none := by
  cases hg : gather l with
  | none => rfl
  | some vs => rw [(gather_eq_some_iff _ _).1 hg] at h; simp at h

/-- Reading a register file answers W values, the value of each lane. -/
theorem readLanes_eq_some_iff (w : Nat) (regs : List Reg) (vs : List Nat) :
    readLanes w regs = some vs ↔ vs.length = w ∧ ∀ i < w, laneOf regs i = vs[i]? := by
  unfold readLanes
  rw [gather_eq_some_iff]
  constructor
  · intro h
    have hl : vs.length = w := by simpa using (congrArg List.length h).symm
    refine ⟨hl, fun i hi => ?_⟩
    have := congrArg (·[i]?) h
    simp only [List.getElem?_map, List.getElem?_range hi] at this
    have hv : i < vs.length := hl ▸ hi
    rw [List.getElem?_eq_getElem hv] at this ⊢
    simpa using this
  · rintro ⟨hl, h⟩
    apply List.ext_getElem
    · simp [hl]
    · intro i h1 h2
      have hi : i < w := by simpa using h1
      have hv : i < vs.length := hl ▸ hi
      simp [h i hi, List.getElem?_eq_getElem hv]

theorem readLanes_map_some {w : Nat} {vs : List Nat} (h : vs.length = w) : readLanes w (vs.map some) = some vs := by
  rw [readLanes_eq_some_iff]
  refine ⟨h, fun i hi => ?_⟩
  have hv : i < vs.length := h ▸ hi
  simp [laneOf, List.getElem?_eq_getElem hv]

theorem readLanes_eq_none {w : Nat} {regs : List Reg} {i : Nat} (hi : i < w) (h : laneOf regs i = none) :
    readLanes w regs = none :=
  gather_eq_none (List.mem_map.2 ⟨i, List.mem_range.2 hi, h⟩)

/-- Raising FAULT in a state without one. -/
theorem raiseFault_of_clear {s : State} (h : s.fault = false) (c : BitVec 2) :
    raiseFault c s = { s with fault := true, fcause := c } := by simp [raiseFault, h]

/-- Raising FAULT in a faulted state keeps the first cause. -/
theorem raiseFault_of_set {s : State} (h : s.fault = true) (c : BitVec 2) : raiseFault c s = s := by
  simp [raiseFault, h]

/-- AFTER by cases. -/
theorem afterPhase_eq (c : Config) (p : Phase) : afterPhase c p =
    match p with
    | .idle => if 0 < half c then .full1 else if 0 < c.rp then .part else .done
    | .full1 => if 0 < c.rp then .part else if 0 < half c then .full2 else .done
    | .part => if 0 < half c then .full2 else .done
    | .full2 => .done
    | .done => .done := by
  by_cases h1 : 0 < half c <;> by_cases h2 : 0 < c.rp <;> cases p <;>
    simp [afterPhase, phaseCode, phaseCount, segCount, List.find?, h1, h2]

theorem nextPc_within {c : Config} {p : Phase} {r : BitVec 11} {s : BitVec 2} (h : s.toNat < 3) :
    nextPc c p r s = ⟨phaseCode p, r, s + 1⟩ := by simp [nextPc, h]

theorem nextPc_round {c : Config} {p : Phase} {r : BitVec 11} {s : BitVec 2} (h : ¬ s.toNat < 3)
    (hr : r.toNat + 1 < phaseCount c p) : nextPc c p r s = ⟨phaseCode p, r + 1, 0⟩ := by simp [nextPc, h, hr]

theorem nextPc_phase {c : Config} {p : Phase} {r : BitVec 11} {s : BitVec 2} (h : ¬ s.toNat < 3)
    (hr : ¬ r.toNat + 1 < phaseCount c p) : nextPc c p r s = ⟨phaseCode (afterPhase c p), 0, 0⟩ := by
  simp [nextPc, h, hr]

theorem nextPos_eq {s : State} {p : Phase} (h : s.phase = phaseCode p) :
    s.nextPos = nextPc s.cfg p s.round s.step := by simp [State.nextPos, h]

end Sys2Proof.Machine
end

