-- ==== Sys2Proof/Laws/PerInstr.lean ====
section
/-! SUPPORT. For every instruction: its binary form lies under its own row of the opcode table (30_encoding.md R87,
R92), and under no other row. -/

namespace Sys2Proof.Laws.TableRow

/-- The rows of the table: format (true for CW16), mask and match. -/
def row : Instr → Bool × Nat × Nat
  | .nop => (true, 0xFFFF, 0x0000)
  | .lrc _ _ => (true, 0xE000, 0x2000)
  | .arc => (true, 0xFFFF, 0x4000)
  | .sbf => (true, 0xFFFF, 0x6000)
  | .sbp => (true, 0xFFFF, 0x8000)
  | .mds => (true, 0xFFFF, 0xA000)
  | .noCommand => (false, 0x3, 0x0)
  | .start _ => (false, 0x3, 0x1)
  | .ack => (false, 0x3, 0x2)

/-- The rows, mask and match, of one format. -/
def rowsOf (cw : Bool) : List (Nat × Nat) :=
  if cw then [(0xFFFF, 0x0000), (0xE000, 0x2000), (0xFFFF, 0x4000), (0xFFFF, 0x6000), (0xFFFF, 0x8000), (0xFFFF, 0xA000)]
  else [(0x3, 0x0), (0x3, 0x1), (0x3, 0x2)]

/-- Format and bits of a binary form; the IN port is no part of the bits. -/
def bitsOf : Encoded → Bool × Nat
  | .cw w => (true, w.toNat)
  | .cmd code _ => (false, code.toNat)

/-- The rows of its format that the instruction's bits match are exactly its own. -/
def Statement (i : Instr) : Prop :=
  (bitsOf (encode i)).1 = (row i).1 ∧
    (rowsOf (row i).1).filter (fun r => (bitsOf (encode i)).2 &&& r.1 == r.2) = [(row i).2]

theorem nop : Statement .nop := ⟨rfl, rfl⟩

theorem arc : Statement .arc := ⟨rfl, rfl⟩

theorem sbf : Statement .sbf := ⟨rfl, rfl⟩

theorem sbp : Statement .sbp := ⟨rfl, rfl⟩

theorem mds : Statement .mds := ⟨rfl, rfl⟩

theorem noCommand : Statement .noCommand := ⟨rfl, rfl⟩

theorem start (inp : List Lane) : Statement (.start inp) := ⟨rfl, by simp [row, rowsOf, bitsOf, encode]⟩

theorem ack : Statement .ack := ⟨rfl, rfl⟩

/-- The number of a control word is its fields' weighted sum. -/
theorem cwOf_toNat (op : BitVec 3) (seg : BitVec 2) (rnd : BitVec 11) :
    (cwOf op seg rnd).toNat = op.toNat * 2 ^ 13 + (seg.toNat * 2 ^ 11 + rnd.toNat) := by
  have h1 : (cwOf op seg rnd).toNat = (op ++ seg).toNat <<< 11 ||| rnd.toNat := BitVec.toNat_append _ _
  rw [h1, BitVec.toNat_append, ← Nat.shiftLeft_add_eq_or_of_lt rnd.isLt, ← Nat.shiftLeft_add_eq_or_of_lt seg.isLt]
  simp only [Nat.shiftLeft_eq]
  ring

theorem lrc (seg : BitVec 2) (rnd : BitVec 11) : Statement (.lrc seg rnd) := by
  have hs := seg.isLt
  have hr := rnd.isLt
  have hn : (cwOf 1 seg rnd).toNat = 2 ^ 13 + (seg.toNat * 2 ^ 11 + rnd.toNat) := by
    rw [cwOf_toNat]; rfl
  have hm : (cwOf 1 seg rnd).toNat &&& 0xE000 = 0x2000 := by
    have hb : cwOf 1 seg rnd &&& 0xE000#16 = 0x2000#16 := by
      apply BitVec.eq_of_getLsbD_eq
      intro k hk
      rw [BitVec.getLsbD_and, cwOf_getLsbD]
      interval_cases k <;> simp
    simpa using congrArg BitVec.toNat hb
  refine ⟨rfl, ?_⟩
  have hf (m : Nat) (h : m < 0x2000 ∨ 0x4000 ≤ m) : ((cwOf 1 seg rnd).toNat &&& 0xFFFF == m) = false := by
    rw [show (0xFFFF : Nat) = 2 ^ 16 - 1 from rfl, Nat.and_two_pow_sub_one_eq_mod]
    simp only [beq_eq_false_iff_ne]
    omega
  simp only [row, rowsOf, bitsOf, encode, if_true, List.filter_cons, List.filter_nil, hm, beq_self_eq_true,
    hf 0x0000 (by decide), hf 0x4000 (by decide), hf 0x6000 (by decide), hf 0x8000 (by decide), hf 0xA000 (by decide)]
  rfl

end Sys2Proof.Laws.TableRow
end

