-- ==== Sys2Proof/Laws/Roms.lean ====
section
/-! SUPPORT. What the ROM accesses answer under a well-formed configuration. -/

namespace Sys2Proof.Machine

/-- A list of present values, by index. -/
theorem gather_range {α : Type} {n : Nat} {f : Nat → Option α} {vs : List α} (hl : vs.length = n)
    (h : ∀ i < n, f i = vs[i]?) : gather ((List.range n).map f) = some vs := by
  rw [gather_eq_some_iff]
  apply List.ext_getElem
  · simp [hl]
  · intro i h1 h2
    have hi : i < n := by simpa using h1
    have hv : i < vs.length := hl ▸ hi
    simp [h i hi, List.getElem?_eq_getElem hv]

/-- The last address of a legal window lies in the ROM (41_round_constants.md R130). -/
theorem windowAddr_lt {c : Config} (hw : c.WellFormed) {seg r i : Nat} (hr : r < segCount c seg) (hi : i < c.w) :
    windowAddr c seg r i < nrc c := by
  have heven := hw.even
  have hrf : c.rf = 2 * half c := by unfold half; omega
  have key : segBase c seg + segCount c seg * c.w ≤ nrc c := by
    have h1 := Nat.zero_le (half c * c.w)
    have h2 := Nat.zero_le (c.rp * c.w)
    unfold nrc
    rw [hrf]
    match seg, hr with
    | 1, _ => simp only [segBase, segCount]; nlinarith
    | 2, _ => simp only [segBase, segCount]; nlinarith
    | 3, _ => simp only [segBase, segCount]; nlinarith
    | 0, h => exact absurd h (Nat.not_lt_zero _)
    | _ + 4, h => exact absurd h (Nat.not_lt_zero _)
  have : (r + 1) * c.w ≤ segCount c seg * c.w := Nat.mul_le_mul_right _ hr
  unfold windowAddr
  rw [Nat.add_mul] at this
  omega

theorem romRC_eq {c : Config} {a : Nat} (h : a < nrc c) : romRC c a = c.rc[a]? := if_pos h

/-- The window of a legal round is the W words from its base on. -/
theorem romWindow_eq {c : Config} (hw : c.WellFormed) {seg r : Nat} (hr : r < segCount c seg) :
    romWindow c seg r = some ((c.rc.drop (segBase c seg + r * c.w)).take c.w) := by
  obtain ⟨hlen, -⟩ := (Memory.wf_iff c).1 hw.tables
  have hfit : segBase c seg + r * c.w + c.w ≤ c.rc.length := by
    have := windowAddr_lt hw hr (i := c.w - 1) (by have := hw.width; omega)
    have := hw.width
    unfold windowAddr at *
    omega
  apply gather_range
  · simp; omega
  · intro i hi
    rw [romRC_eq (windowAddr_lt hw hr hi)]
    simp [hi, windowAddr]

/-- Every row of the MDS ROM has W words. -/
theorem romMatrix_eq {c : Config} (hw : c.WellFormed) : romMatrix c = some c.m := by
  obtain ⟨-, -, hm, hrow⟩ := (Memory.wf_iff c).1 hw.tables
  apply gather_range hm
  intro i hi
  have hi' : i < c.m.length := hm ▸ hi
  rw [List.getElem?_eq_getElem hi']
  apply gather_range (hrow _ (List.getElem_mem hi')).1
  intro j hj
  simp [romM, hi, hj, List.getElem?_eq_getElem hi']

end Sys2Proof.Machine
end

