-- ==== Sys2Proof/Laws/Schedule.lean ====
section
/-! SUPPORT. The scheduler's word by phase and step. -/

namespace Sys2Proof.Machine

theorem sched_waiting {p : Phase} (h : phaseBusy p = false) (r : BitVec 11) (s : BitVec 2) : sched p r s = .nop := by
  cases p <;> first | rfl | cases h

theorem sched_load {p : Phase} (h : phaseBusy p = true) (r : BitVec 11) :
    sched p r 0 = .lrc ((phaseCode p).setWidth 2) r := by
  cases p <;> first | rfl | cases h

theorem sched_add {p : Phase} (h : phaseBusy p = true) (r : BitVec 11) : sched p r 1 = .arc := by
  cases p <;> first | rfl | cases h

theorem sched_sbox {p : Phase} (h : phaseBusy p = true) (r : BitVec 11) :
    sched p r 2 = if p = .part then .sbp else .sbf := by
  cases p <;> first | rfl | cases h

theorem sched_mix {p : Phase} (h : phaseBusy p = true) (r : BitVec 11) : sched p r 3 = .mds := by
  cases p <;> first | rfl | cases h

/-- The four steps of a round. -/
theorem step_cases (s : BitVec 2) : s = 0 ∨ s = 1 ∨ s = 2 ∨ s = 3 := by revert s; decide

/-- The word emitted is the encoding of the scheduled micro-operation, and its format decodes to it. -/
theorem decodeFormat_schedWord (p : Phase) (r : BitVec 11) (s : BitVec 2) :
    decodeFormat (schedWord p r s) = .ok (sched p r s) := by
  cases hb : phaseBusy p with
  | false => unfold schedWord; rw [sched_waiting hb]; rfl
  | true =>
    unfold schedWord
    rcases step_cases s with rfl | rfl | rfl | rfl
    · rw [sched_load hb]
      have : ¬ (phaseCode p).setWidth 2 = 0#2 := by cases p <;> first | decide | cases hb
      simp [encode, decodeFormat, this]
    · rw [sched_add hb]; rfl
    · rw [sched_sbox hb]; by_cases hp : p = .part <;> simp only [hp, if_true, if_false] <;> rfl
    · rw [sched_mix hb]; rfl

/-- A word whose rounds are in range decodes to the scheduled micro-operation. -/
theorem decodeCw_schedWord {c : Config} {p : Phase} {r : BitVec 11} (s : BitVec 2)
    (h : phaseBusy p = true → r.toNat < phaseCount c p) : decodeCw c (schedWord p r s) = .ok (sched p r s) := by
  apply decodeCw_of_format (decodeFormat_schedWord p r s)
  intro seg rnd he
  cases hb : phaseBusy p with
  | false => rw [sched_waiting hb] at he; cases he
  | true =>
    have hr := h hb
    rcases step_cases s with rfl | rfl | rfl | rfl
    · rw [sched_load hb] at he
      cases he
      cases p <;> exact hr
    · rw [sched_add hb] at he; cases he
    · rw [sched_sbox hb] at he; split at he <;> cases he
    · rw [sched_mix hb] at he; cases he

end Sys2Proof.Machine
end

