-- ==== Sys2Proof/Tests/Slice0.lean ====
section
/-! SUPPORT. Tests against the vectors of 95_test_vectors.md (each test names its vector), and for every obligation with
hypotheses a witness that meets them. -/

namespace Sys2Proof.Tests

open Machine

/-! ## Fixtures (95_test_vectors.md section 2) -/

def toy97 : Config where
  w := 5
  p := 97
  rf := 2
  rp := 5
  rc := [3, 10, 17, 24, 31, 38, 45, 52, 59, 66, 73, 80, 87, 94, 4, 11, 18, 25] ++
    [32, 39, 46, 53, 60, 67, 74, 81, 88, 95, 5, 12, 19, 26, 33, 40, 47]
  m := [[39, 14, 54, 53, 15], [81, 85, 68, 89, 7], [14, 54, 53, 15, 13], [85, 68, 89, 7, 91], [54, 53, 15, 13, 40]]
  sbox := .pow5
  noncanon := .reject

def toy97Inv : Config := { toy97 with sbox := .inv }

def toy97Reduce : Config := { toy97 with noncanon := .reduce }

def toy23 : Config where
  w := 3
  p := 23
  rf := 4
  rp := 2
  rc := [2, 7, 12, 17, 22, 4, 9, 14, 19, 1, 6, 11, 16, 21, 3, 8, 13, 18]
  m := [[8, 14, 10], [6, 4, 3], [14, 10, 18]]
  sbox := .pow5
  noncanon := .reject

def toy23Inv : Config := { toy23 with sbox := .inv }

/-- The fixture of V28 with no partial rounds, on TOY23W3's field. -/
def toyNoPartial : Config := { toy23 with rf := 2, rp := 0, rc := [2, 7, 12, 17, 22, 4] }

/-- The fixture of V28 with partial rounds alone. -/
def toyNoFull : Config := { toy23 with rf := 0, rp := 3, rc := [2, 7, 12, 17, 22, 4, 9, 14, 19] }

/-- The fixture of V28 without rounds. -/
def toyNoRounds : Config := { toy23 with rf := 0, rp := 0, rc := [] }

theorem toy97_wellFormed : toy97.WellFormed :=
  ⟨by norm_num [toy97], by decide, by decide, by decide, by decide, by decide, by decide⟩

theorem toy97Inv_wellFormed : toy97Inv.WellFormed :=
  ⟨by norm_num [toy97Inv, toy97], by decide, by decide, by decide, by decide, by decide, by decide⟩

theorem toy97Reduce_wellFormed : toy97Reduce.WellFormed :=
  ⟨by norm_num [toy97Reduce, toy97], by decide, by decide, by decide, by decide, by decide, by decide⟩

theorem toy23_wellFormed : toy23.WellFormed :=
  ⟨by norm_num [toy23], by decide, by decide, by decide, by decide, by decide, by decide⟩

theorem toyNoPartial_wellFormed : toyNoPartial.WellFormed :=
  ⟨by norm_num [toyNoPartial, toy23], by decide, by decide, by decide, by decide, by decide, by decide⟩

theorem toyNoFull_wellFormed : toyNoFull.WellFormed :=
  ⟨by norm_num [toyNoFull, toy23], by decide, by decide, by decide, by decide, by decide, by decide⟩

theorem toyNoRounds_wellFormed : toyNoRounds.WellFormed :=
  ⟨by norm_num [toyNoRounds, toy23], by decide, by decide, by decide, by decide, by decide, by decide⟩

theorem toy23Inv_wellFormed : toy23Inv.WellFormed :=
  ⟨by norm_num [toy23Inv, toy23], by decide, by decide, by decide, by decide, by decide, by decide⟩

/-! The engine of each fixture right after reset. -/

def reset23 : State := State.resetWith toy23 toy23_wellFormed

def reset23Inv : State := State.resetWith toy23Inv toy23Inv_wellFormed

def reset97 : State := State.resetWith toy97 toy97_wellFormed

def reset97Inv : State := State.resetWith toy97Inv toy97Inv_wellFormed

def reset97Reduce : State := State.resetWith toy97Reduce toy97Reduce_wellFormed

def resetNoRounds : State := State.resetWith toyNoRounds toyNoRounds_wellFormed

/-- The engine of a fixture, from reset, at a position. -/
def engineAt (fresh : State) (p : BitVec 3) (r : BitVec 11) (st : BitVec 2) (S K : List Reg) : State :=
  { fresh with S := S, K := K, phase := p, round := r, step := st }

/-- Lanes that hold values. -/
def held (vs : List Nat) : List Reg := vs.map some

/-- IN lanes. -/
def port (vs : List Nat) : List Lane := vs.map (BitVec.ofNat 256)

def nextOf {α : Type} : Host.Outcome α Fault Refusal → Option α
  | .next a => some a
  | .fault _ => none
  | .refused _ => none

def refusalOf {α : Type} : Host.Outcome α Fault Refusal → Option Refusal
  | .next _ => none
  | .fault _ => none
  | .refused r => some r

def faultOf {α : Type} : Host.Outcome α Fault Refusal → Option Fault
  | .next _ => none
  | .fault f => some f
  | .refused _ => none

/-- S, K and the scheduler registers of the next state. -/
def regsOf (o : Out) : Option (List Reg × List Reg × Nat × Nat × Nat) :=
  (nextOf o).map fun t => (t.S, t.K, t.phase.toNat, t.round.toNat, t.step.toNat)

/-- FAULT, FCAUSE and STATUS of the next state. -/
def faultRegsOf (o : Out) : Option (Bool × Nat × Nat) :=
  (nextOf o).map fun t => (t.fault, t.fcause.toNat, (statusWord t).toNat)

def okOf {α : Type} : Except Reserved α → Option α
  | .ok a => some a
  | .error _ => none

def errorOf {α : Type} : Except Reserved α → Option Reserved
  | .ok _ => none
  | .error e => some e

/-- The tables of the fixtures are the formulas the spec gives for them. -/
theorem test_fixture_tables :
    toy97.rc = (List.range 35).map (fun k => (7 * k + 3) % 97) ∧
    toy97.m = (List.range 5).map (fun i => (List.range 5).map fun j => finv 97 ((i + 2 * j + 5) % 97)) ∧
    toy23.rc = (List.range 18).map (fun k => (5 * k + 2) % 23) ∧
    toy23.m = (List.range 3).map (fun i => (List.range 3).map fun j => finv 23 ((i + 2 * j + 3) % 23)) := by decide

/-! ## Well-formedness: an ill-formed term for each check -/

/-- 30_encoding.md R90: SEG = 0. -/
theorem test_illformed_segment : (Instr.lrc 0 0).wellFormed toy97 = false := by decide

/-- V10c, V10e: RND >= count(SEG). -/
theorem test_illformed_round :
    (Instr.lrc 1 1).wellFormed toy97 = false ∧ (Instr.lrc 2 5).wellFormed toy97 = false ∧
      (Instr.lrc 3 1).wellFormed toy97 = false := by decide

/-- 10_state.md R30: IN has W lanes. -/
theorem test_illformed_port : (Instr.start (port [0, 0, 0, 0])).wellFormed toy97 = false := by decide

/-- 00_scope.md R4(d), (e): a short constant table, a word >= P, a matrix without a row, a short row. -/
theorem test_illformed_tables :
    Memory.wf { toy23 with rc := [2, 7] } = false ∧ Memory.wf { toyNoRounds with rf := 2, rc := [1, 2, 3, 4, 5, 23] } = false ∧
    Memory.wf { toy23 with m := [[8, 14, 10], [6, 4, 3]] } = false ∧
    Memory.wf { toy23 with m := [[8, 14, 10], [6, 4, 3], [14, 10]] } = false := by decide

/-- 00_scope.md R4(c): an odd number of full rounds. -/
theorem test_illformed_odd : ¬ Config.WellFormed { toy23 with rf := 3 } := fun h => absurd h.even (by decide)

/-- 00_scope.md R4: an ill-formed configuration has no state. -/
theorem test_illformed_no_state (s : State) : s.cfg ≠ { toy23 with rf := 3 } := fun h => test_illformed_odd (h ▸ s.wf)

/-- 00_scope.md R4(b): no lane. -/
theorem test_illformed_width : ¬ Config.WellFormed { toy23 with w := 0 } := fun h => absurd h.width (by decide)

/-- 00_scope.md R4(a): a composite P. -/
theorem test_illformed_prime : ¬ Config.WellFormed { toy23 with p := 24 } := fun h => absurd h.prime (by norm_num)

/-- 00_scope.md R4(a): P = 2^256 + 297, a number of 257 bits. -/
theorem test_illformed_size : ¬ Config.WellFormed { toy23 with p := 2 ^ 256 + 297 } :=
  fun h => absurd h.below (by decide)

/-- 00_scope.md R4(f): more rounds than ROUND can count. -/
theorem test_illformed_rounds :
    ¬ Config.WellFormed { toy23 with rp := 2049 } ∧ ¬ Config.WellFormed { toy23 with rf := 4098 } :=
  ⟨fun h => absurd h.partialFits (by decide), fun h => absurd h.halfFits (by decide)⟩

/-! ## Decoding (V10): the words bit by bit, OP SEG RND -/

/-- V10a, V10h, V10j, V10k, V10l. -/
theorem test_decode_words :
    okOf (decodeCw toy97 0b000_00_00000000000) = some .nop ∧ okOf (decodeCw toy97 0b010_00_00000000000) = some .arc ∧
    okOf (decodeCw toy97 0b011_00_00000000000) = some .sbf ∧ okOf (decodeCw toy97 0b100_00_00000000000) = some .sbp ∧
    okOf (decodeCw toy97 0b101_00_00000000000) = some .mds := by decide

/-- V10b, V10d, V10f. -/
theorem test_decode_lrc :
    okOf (decodeCw toy97 0b001_01_00000000000) = some (.lrc 1 0) ∧
    okOf (decodeCw toy97 0b001_10_00000000100) = some (.lrc 2 4) ∧
    okOf (decodeCw toy97 0b001_11_00000000000) = some (.lrc 3 0) := by decide

/-- V10c, V10e, V10g. -/
theorem test_decode_lrc_reserved :
    errorOf (decodeCw toy97 0x2801) = some .roundOutOfRange ∧ errorOf (decodeCw toy97 0x3005) = some .roundOutOfRange ∧
    errorOf (decodeCw toy97 0x2000) = some .segZero := by decide

/-- V10i, V10j, V10m, V10n. -/
theorem test_decode_reserved :
    errorOf (decodeCw toy97 0x4001) = some .nonzeroFields ∧ errorOf (decodeCw toy97 0x6800) = some .nonzeroFields ∧
    errorOf (decodeCw toy97 0xC000) = some .opcode ∧ errorOf (decodeCw toy97 0xE000) = some .opcode ∧
    errorOf (decodeCw toy97 0xFFFF) = some .opcode ∧ errorOf (decodeCw toy97 0x0001) = some .nonzeroFields := by decide

/-- 95_test_vectors.md 3.2, with TOY23W3's counts. -/
theorem test_decode_width3 :
    okOf (decodeCw toy23 0x2801) = some (.lrc 1 1) ∧ errorOf (decodeCw toy23 0x2802) = some .roundOutOfRange := by decide

/-- 30_encoding.md R92. -/
theorem test_decode_commands :
    okOf (decodeCmd 0b00 (port [1])) = some .noCommand ∧ okOf (decodeCmd 0b01 (port [1])) = some (.start (port [1])) ∧
    okOf (decodeCmd 0b10 (port [1])) = some .ack ∧ errorOf (decodeCmd 0b11 (port [1])) = some .command := by decide

/-- The words of the opcode table, as the host numbers them. -/
theorem test_table_words :
    decodeTableWord 16 0x0000 = some .nop ∧ decodeTableWord 16 0x2800 = some (.lrc 1 0) ∧
    decodeTableWord 16 0x4000 = some .arc ∧ decodeTableWord 16 0x6000 = some .sbf ∧
    decodeTableWord 16 0x8000 = some .sbp ∧ decodeTableWord 16 0xA000 = some .mds ∧
    decodeTableWord 8 0 = some .noCommand ∧ decodeTableWord 8 1 = some (.start (port [0, 0, 0, 0, 0])) ∧
    decodeTableWord 8 2 = some .ack ∧ decodeTableWord 16 0x2000 = none ∧ decodeTableWord 8 3 = none := by decide

/-- 30_encoding.md R95. -/
theorem test_assembler :
    asmText (.lrc 2 4) = "LRC 2, 4" ∧ asmText (.start (port [1, 2, 3])) = "START 1, 2, 3" ∧ asmText .sbp = "SBP" ∧
    asmText .noCommand = "NONE" := by decide

/-! ## Serialised elements and field arithmetic -/

/-- V8, V9. -/
theorem test_bytes :
    be32 0 = List.replicate 32 0 ∧ be32 258 = List.replicate 30 0 ++ [1, 2] ∧
    unbe32 (1 :: List.replicate 31 0) = 2 ^ 248 := by decide

/-- V11a to V11e. -/
theorem test_field :
    fadd 97 96 1 = 0 ∧ fadd 97 50 60 = 13 ∧ fadd 97 96 96 = 95 ∧ fmul 97 96 96 = 1 ∧ fmul 97 10 10 = 3 ∧
    fpow 97 3 5 = 49 ∧ fpow 97 0 5 = 0 ∧ fpow 97 0 0 = 1 ∧ finv 97 0 = 0 ∧ finv 97 2 = 49 ∧ finv 97 96 = 96 ∧
    fdot 97 [39, 14, 54, 53, 15] [49, 90, 68, 88, 86] = 90 := by decide

/-- V11f. -/
theorem test_field_tables :
    (List.range 23).map (fun x => fpow 23 x 5) =
      [0, 1, 9, 13, 12, 20, 2, 17, 16, 8, 19, 5, 18, 4, 15, 7, 6, 21, 3, 11, 10, 14, 22] ∧
    (List.range 23).map (finv 23) =
      [0, 1, 12, 8, 6, 14, 4, 10, 3, 18, 7, 21, 2, 16, 5, 20, 13, 19, 9, 17, 15, 11, 22] := by decide

/-! ## Micro-operations -/

/-- V14; V13 by its own word is the first step of V30's run. -/
theorem test_lrc : regsOf (exec (.lrc 2 4) (engineAt reset97 2 4 0 (held [1, 2, 3, 4, 5]) (noLanes 5))) =
    some (held [1, 2, 3, 4, 5], held [81, 88, 95, 5, 12], 2, 4, 1) := by decide

/-- V15a: the restart of the round in the third segment. -/
theorem test_lrc_segment3 : regsOf (exec (.lrc 3 1) (engineAt reset23 3 1 0 (held [1, 2, 3]) (held [0, 0, 0]))) =
    some (held [1, 2, 3], held [8, 13, 18], 3, 1, 1) := by decide

/-- V17. -/
theorem test_arc : regsOf (exec .arc (engineAt reset97 2 0 1 (held [90, 39, 45, 44, 22]) (held [38, 45, 52, 59, 66]))) =
    some (held [31, 84, 0, 6, 88], held [38, 45, 52, 59, 66], 2, 0, 2) := by decide

/-- V18. -/
theorem test_arc_wraps :
    regsOf (exec .arc (engineAt reset97 1 0 1 (held [96, 96, 96, 96, 96]) (held [3, 10, 17, 24, 31]))) =
      some (held [2, 9, 16, 23, 30], held [3, 10, 17, 24, 31], 1, 0, 2) := by decide

/-- V19. -/
theorem test_sbf : regsOf (exec .sbf (engineAt reset97 1 0 2 (held [3, 10, 17, 24, 31]) (held [0, 0, 0, 0, 0]))) =
    some (held [49, 90, 68, 88, 86], held [0, 0, 0, 0, 0], 1, 0, 3) := by decide

/-- V20, V22b: the inversion map, and its zero operand. -/
theorem test_sbf_inversion :
    (nextOf (exec .sbf (engineAt reset97Inv 1 0 2 (held [3, 10, 17, 24, 31]) (noLanes 5)))).map (·.S) =
      some (held [65, 68, 40, 93, 72]) ∧
    (nextOf (exec .sbf (engineAt reset23Inv 1 0 2 (held [0, 5, 22]) (noLanes 3)))).map (·.S) =
      some (held [0, 14, 22]) := by decide

/-- V21. -/
theorem test_sbp : regsOf (exec .sbp (engineAt reset97 2 0 2 (held [31, 84, 0, 6, 88]) (held [1, 1, 1, 1, 1]))) =
    some (held [86, 84, 0, 6, 88], held [1, 1, 1, 1, 1], 2, 0, 3) := by decide

/-- V22, V22a. -/
theorem test_sbp_lanes :
    (nextOf (exec .sbp (engineAt reset97Inv 2 0 2 (held [54, 87, 64, 19, 35]) (noLanes 5)))).map (·.S) =
      some (held [9, 87, 64, 19, 35]) ∧
    (nextOf (exec .sbp (engineAt reset23 2 1 2 (held [1, 1, 12]) (noLanes 3)))).map (·.S) =
      some (held [1, 1, 12]) := by decide

/-- V23: the last round of FULL1, so PARTIAL begins; the transposed matrix would give 64, 46, 55, 72, 20. -/
theorem test_mds : regsOf (exec .mds (engineAt reset97 1 0 3 (held [49, 90, 68, 88, 86]) (held [3, 10, 17, 24, 31]))) =
    some (held [90, 39, 45, 44, 22], held [3, 10, 17, 24, 31], 2, 0, 0) := by decide

/-- V25: a unit vector reads a column. -/
theorem test_mds_column :
    (nextOf (exec .mds (engineAt reset97 2 0 3 (held [1, 0, 0, 0, 0]) (noLanes 5)))).map (·.S) =
      some (held [39, 81, 14, 85, 54]) := by decide

/-- V26, the waiting phases. -/
theorem test_nop : regsOf (exec .nop (engineAt reset97 4 0 0 (held [1, 2, 3, 4, 5]) (held [5, 4, 3, 2, 1]))) =
    some (held [1, 2, 3, 4, 5], held [5, 4, 3, 2, 1], 4, 0, 0) := by decide

/-- 10_state.md R22: K is ⊥ right after START. -/
theorem test_arc_no_value : faultOf (exec .arc (engineAt reset97 1 0 1 (held [1, 2, 3, 4, 5]) (noLanes 5))) =
    some .readNoValue := by decide

/-! ## The scheduler -/

/-- V26. -/
theorem test_next :
    nextPc toy97 .full1 0 0 = ⟨1, 0, 1⟩ ∧ nextPc toy97 .full1 0 3 = ⟨2, 0, 0⟩ ∧ nextPc toy97 .part 0 3 = ⟨2, 1, 0⟩ ∧
    nextPc toy97 .part 4 3 = ⟨3, 0, 0⟩ ∧ nextPc toy97 .full2 0 3 = ⟨4, 0, 0⟩ := by decide

/-- V27. -/
theorem test_next_width3 :
    nextPc toy23 .full1 0 3 = ⟨1, 1, 0⟩ ∧ nextPc toy23 .full1 1 3 = ⟨2, 0, 0⟩ ∧ nextPc toy23 .part 1 3 = ⟨3, 0, 0⟩ ∧
    nextPc toy23 .full2 0 3 = ⟨3, 1, 0⟩ ∧ nextPc toy23 .full2 1 3 = ⟨4, 0, 0⟩ ∧ schedWord .full2 1 0 = 0x3801 := by
  decide

/-- V26, column SCHED. -/
theorem test_sched :
    schedWord .full1 0 0 = 0x2800 ∧ schedWord .full1 0 1 = 0x4000 ∧ schedWord .full1 0 2 = 0x6000 ∧
    schedWord .full1 0 3 = 0xA000 ∧ schedWord .part 0 2 = 0x8000 ∧ schedWord .full2 0 0 = 0x3800 ∧
    schedWord .done 0 0 = 0x0000 ∧ schedWord .idle 0 0 = 0x0000 := by decide

/-- V28. -/
theorem test_empty_phases :
    afterPhase toyNoPartial .idle = .full1 ∧ afterPhase toyNoPartial .full1 = .full2 ∧
    afterPhase toyNoPartial .full2 = .done ∧ afterPhase toyNoFull .idle = .part ∧ afterPhase toyNoFull .part = .done ∧
    afterPhase toyNoRounds .idle = .done := by decide

/-- P1, step 15: the ENGINE's turn fetches, decodes and runs 0x8000. -/
theorem test_engine_turn : regsOf (step (engineAt reset23 2 0 2 (held [12, 4, 3]) (held [9, 14, 19]))) =
    some (held [18, 4, 3], held [9, 14, 19], 2, 0, 3) := by decide

/-! ## Commands and faults -/

/-- V30. -/
theorem test_start : regsOf (exec (.start (port [0, 0, 0, 0, 0])) reset97) =
    some (held [0, 0, 0, 0, 0], noLanes 5, 1, 0, 0) := by decide

/-- V31. -/
theorem test_start_busy :
    nextOf (exec (.start (port [1, 1, 1, 1, 1])) (engineAt reset97 2 3 1 (held [1, 2, 3, 4, 5]) (held [46, 53, 60, 67, 74]))) =
      some { engineAt reset97 2 3 1 (held [1, 2, 3, 4, 5]) (held [46, 53, 60, 67, 74]) with fault := true, fcause := 1 } ∧
    faultRegsOf (exec (.start (port [1, 1, 1, 1, 1])) (engineAt reset97 2 3 1 (held [1, 2, 3, 4, 5]) (noLanes 5))) =
      some (true, 1, 0x0D) := by decide

/-- V32. -/
theorem test_start_noncanonical :
    faultRegsOf (exec (.start (port [0, 97, 0, 0, 0])) reset97) = some (true, 2, 0x14) ∧
    regsOf (exec (.start (port [0, 97, 0, 0, 0])) reset97) =
      some (noLanes 5, noLanes 5, 0, 0, 0) := by decide

/-- V33. -/
theorem test_ack_idle : faultRegsOf (exec .ack reset97) = some (true, 1, 0x0C) := by decide

/-- V33a. -/
theorem test_reserved_command :
    faultRegsOf (step { reset97 with agenda := [.host ⟨false, 3, port [0, 0, 0, 0, 0]⟩] }) =
      some (true, 1, 0x0C) := by decide

/-- V33b: the phase test comes before the range test. -/
theorem test_start_busy_noncanonical :
    faultRegsOf (exec (.start (port [0, 97, 0, 0, 0])) (engineAt reset97 1 0 1 (held [1, 2, 3, 4, 5]) (noLanes 5))) =
      some (true, 1, 0x0D) := by decide

/-- V33c: the first cause stays. -/
theorem test_fault_sticky :
    faultRegsOf (exec .ack { reset97 with fault := true, fcause := 2 }) = some (true, 2, 0x14) := by decide

/-- V35. -/
theorem test_ack_done : regsOf (exec .ack (engineAt reset97 4 0 0 (held [86, 48, 40, 73, 53]) (held [19, 26, 33, 40, 47]))) =
    some (noLanes 5, noLanes 5, 0, 0, 0) := by decide

/-- V35a. -/
theorem test_start_done : regsOf (exec (.start (port [1, 2, 3])) (engineAt reset23 4 0 0 (held [22, 18, 4]) (held [8, 13, 18]))) =
    some (held [1, 2, 3], noLanes 3, 1, 0, 0) := by decide

/-- 44_scheduler.md R172. -/
theorem test_no_command :
    nextOf (exec .noCommand (engineAt reset97 2 3 1 (held [1, 2, 3, 4, 5]) (noLanes 5))) =
      some (engineAt reset97 2 3 1 (held [1, 2, 3, 4, 5]) (noLanes 5)) := by decide

/-- V36, with START beside RST. -/
theorem test_reset :
    nextOf (step { engineAt reset97 2 3 1 (held [1, 2, 3, 4, 5]) (held [1, 1, 1, 1, 1]) with
      fault := true, fcause := 1, agenda := [.host ⟨true, 1, port [0, 0, 0, 0, 0]⟩] }) =
      some reset97 := by decide

/-- P1, end state. -/
theorem test_out :
    nextOf (readOut (engineAt reset23 4 0 0 (held [22, 18, 4]) (held [8, 13, 18]))) = some (port [22, 18, 4]) ∧
    (statusWord (engineAt reset23 4 0 0 (held [22, 18, 4]) (held [8, 13, 18]))).toNat = 0x02 ∧
    refusalOf (readOut reset97) = some .outNoValue := by decide

/-! ## The permutation and RUN -/

/-- V34: 21, 1, 18 and 53, 52, 42, 76, 39 are the answers of the wrong schedule. -/
theorem test_restart_index :
    permute toy23 [0, 0, 0] = [22, 18, 4] ∧ permute toy97 [0, 0, 0, 0, 0] = [86, 48, 40, 73, 53] := by decide

/-- P3, with START's own input. -/
theorem test_phase_boundaries :
    afterFull1 toy97 [1, 2, 3, 4, 5] = [61, 39, 83, 20, 88] ∧ afterPartial toy97 [1, 2, 3, 4, 5] = [47, 35, 19, 17, 82] ∧
    permute toy97 [1, 2, 3, 4, 5] = [27, 83, 62, 1, 2] := by decide

/-- P2, P3. -/
theorem test_permute_inversion :
    permute toy23Inv [1, 2, 3] = [22, 7, 6] ∧ permute toy97Inv [0, 0, 0, 0, 0] = [67, 82, 84, 28, 32] := by decide

/-- V38, V42, V44, V44a. -/
theorem test_run_errors :
    (nextOf (runUnit (be32 0) 49 reset97)).map (replyCode ·.1) = some 2 ∧
    (nextOf (runUnit (List.replicate 31 0) 1000 reset97)).map (replyCode ·.1) = some 1 ∧
    (nextOf (runUnit (be32 97) 49 reset97)).map (replyCode ·.1) = some 2 ∧
    (nextOf (runUnit (List.replicate 33 0) 49 reset97)).map (replyCode ·.1) = some 1 := by decide

/-- V43, V43a, V43b, V9a. -/
theorem test_run_decoding :
    (nextOf (runUnit (be32 97) 50 reset97)).map (replyCode ·.1) = some 3 ∧
    decodeInput toy97Reduce (be32 97) matches .ok 0 ∧ decodeInput toy97Reduce (be32 139) matches .ok 42 ∧
    decodeInput toy97Reduce (List.replicate 32 0xFF) matches .ok 60 ∧ decodeInput toy97 (be32 96) matches .ok 96 ∧
    runCost toy97 = 50 := by decide

/-! ## The first instruction after reset -/

/-- On this hardware's own reset state, whatever its open parameters are. -/
theorem test_first_instruction :
    (nextOf (step (State.reset.withFetchWord 16 0x0000))).isSome ∧ (nextOf (step (State.reset.withFetchWord 16 0x4000))).isSome ∧
    (nextOf (step (State.reset.withFetchWord 16 0x6000))).isSome ∧ (nextOf (step (State.reset.withFetchWord 16 0x8000))).isSome ∧
    (nextOf (step (State.reset.withFetchWord 16 0xA000))).isSome ∧ (nextOf (step (State.reset.withFetchWord 8 0))).isSome ∧
    (nextOf (step (State.reset.withFetchWord 8 1))).isSome ∧ (nextOf (step (State.reset.withFetchWord 8 2))).isSome := by decide

/-- LRC under a fixture's counts: V13. -/
theorem test_first_lrc : regsOf (step (reset97.withFetchWord 16 0x2800)) =
    some (held [0, 0, 0, 0, 0], held [3, 10, 17, 24, 31], 1, 0, 1) := by decide

/-! ## Witnesses: states and operands that meet the hypotheses of each obligation

Each theorem is named after its obligation. A hypothesis `exec i s = .next t` is met where `nextOf` answers a state. -/

/-- TOY97 in the middle of an invocation: P3, round P.0 after its LRC. -/
def busy97 : State := engineAt reset97 2 0 1 (held [90, 39, 45, 44, 22]) (held [38, 45, 52, 59, 66])

/-- TOY97 in the step of round F1.0 that loads the constants. -/
def load97 : State := engineAt reset97 1 0 0 (held [0, 0, 0, 0, 0]) (noLanes 5)

/-- TOY97 with a result. -/
def done97 : State := engineAt reset97 4 0 0 (held [86, 48, 40, 73, 53]) (held [19, 26, 33, 40, 47])

/-- TOY97 with BAD_CMD. -/
def faulted97 : State := { busy97 with fault := true, fcause := 1 }

theorem busy97_enabled : busy97.EngineEnabled := ⟨rfl, by decide, by decide⟩

theorem load97_enabled : load97.EngineEnabled := ⟨rfl, by decide, by decide⟩

theorem reset_ready (c : Config) (h : c.WellFormed) : (State.resetWith c h).Ready :=
  ⟨rfl, show (0 : BitVec 2) ≠ 3 by decide, .inl rfl⟩

theorem done97_ready : done97.Ready := ⟨rfl, by decide, .inr rfl⟩

theorem zeros_accepted : AcceptedInput toy97 (port [0, 0, 0, 0, 0]) := ⟨by decide, by simp [port, toy97]⟩

/-- The invariant holds in a state inside a round. -/
theorem busy97_inv : busy97.Inv where
  lanesS := by decide
  lanesK := by decide
  cause := by decide
  causeLegal := by decide
  valuesS := by
    intro _ r hr
    simp only [busy97, engineAt, held, List.map_cons, List.map_nil, List.mem_cons, List.not_mem_nil, or_false] at hr
    rcases hr with rfl | rfl | rfl | rfl | rfl <;> exact ⟨_, rfl, by decide⟩
  window := by
    intro _ _ i hi
    have hi' : i < 5 := hi
    interval_cases i <;> exact ⟨_, rfl, by decide, rfl⟩
  atRest := by decide
  idleEmpty := by decide
  inRange := by decide
  phaseLegal := by decide

theorem witness_DecodeOfEncode : toy97.WellFormed ∧
    Instr.wellFormed toy97 .nop = true ∧ Instr.wellFormed toy97 (.lrc 1 0) = true ∧
    Instr.wellFormed toy97 (.lrc 2 4) = true ∧ Instr.wellFormed toy97 (.lrc 3 0) = true ∧
    Instr.wellFormed toy97 .arc = true ∧ Instr.wellFormed toy97 .sbf = true ∧ Instr.wellFormed toy97 .sbp = true ∧
    Instr.wellFormed toy97 .mds = true ∧ Instr.wellFormed toy97 .noCommand = true ∧
    Instr.wellFormed toy97 (.start (port [0, 96, 97, 1, 5])) = true ∧ Instr.wellFormed toy97 .ack = true :=
  ⟨toy97_wellFormed, by decide⟩

theorem witness_EncodeOfDecode :
    toy97.WellFormed ∧ decodeCw toy97 0x3004 = .ok (.lrc 2 4) ∧ decodeCw toy97 0xA000 = .ok .mds :=
  ⟨toy97_wellFormed, rfl, rfl⟩

/-- One word for each clause of the decoding order; the LRC words stand on both sides of count(2) = 5. -/
theorem witness_DecodingOrder : toy97.WellFormed ∧
    (0xC000#16).extractLsb' 13 3 = 6 ∧ (0xFFFF#16).extractLsb' 13 3 = 7 ∧
    ((0x2000#16).extractLsb' 13 3 = 1 ∧ (0x2000#16).extractLsb' 11 2 = 0) ∧
    ((0x3005#16).extractLsb' 13 3 = 1 ∧ (0x3005#16).extractLsb' 11 2 ≠ 0 ∧
      ((0x3005#16).extractLsb' 0 11).toNat ≥ segCount toy97 ((0x3005#16).extractLsb' 11 2).toNat) ∧
    ((0x3004#16).extractLsb' 13 3 = 1 ∧ (0x3004#16).extractLsb' 11 2 ≠ 0 ∧
      ((0x3004#16).extractLsb' 0 11).toNat < segCount toy97 ((0x3004#16).extractLsb' 11 2).toNat) ∧
    ((0x4001#16).extractLsb' 0 13 ≠ 0 ∧ (0x4001#16).extractLsb' 13 3 = 2) ∧
    ((0xA000#16).extractLsb' 0 13 = 0 ∧ (0xA000#16).extractLsb' 13 3 = 5) := ⟨toy97_wellFormed, by decide⟩

theorem witness_WordsOfTheTable :
    (toy97.WellFormed ∧ 0 < half toy97 ∧ 4 < toy97.rp) ∧ toy23.WellFormed ∧ 1 < half toy23 :=
  ⟨⟨toy97_wellFormed, by decide, by decide⟩, toy23_wellFormed, by decide⟩

theorem witness_BytesRoundTrip :
    2 ^ 256 - 1 < 2 ^ 256 ∧ 258 < 2 ^ 256 ∧ (List.replicate 31 (0 : Byte) ++ [97]).length = 32 := by decide

/-- The first and the last address of each segment. -/
theorem witness_SegmentsTileRom : toy97.WellFormed ∧ ∀ a ∈ [0, 4, 5, 29, 30, 34], a < nrc toy97 :=
  ⟨toy97_wellFormed, by decide⟩

theorem witness_FlatWindowForm :
    toy23.WellFormed ∧ 1 < segCount toy23 1 ∧ 1 < segCount toy23 2 ∧ 1 < segCount toy23 3 :=
  ⟨toy23_wellFormed, by decide, by decide, by decide⟩

theorem witness_EveryConstantLoadedOnce : toy97.WellFormed := toy97_wellFormed

theorem witness_RomsNeverWritten : (nextOf (exec .arc busy97)).isSome ∧ (nextOf (step busy97)).isSome := by decide

/-- A sum below P, one of exactly P, one above, and an inverse. -/
theorem witness_FieldAddition :
    Nat.Prime 97 ∧ ((0 : Nat) < 97 ∧ 0 + 0 < 97) ∧ ((96 : Nat) < 97 ∧ 97 ≤ 96 + 1) ∧ 97 ≤ 96 + 96 ∧
      fadd 97 96 1 = 0 :=
  ⟨by norm_num, by decide, by decide, by decide, by decide⟩

theorem witness_FieldMultiplication : Nat.Prime 97 ∧ (96 : Nat) < 97 ∧ (10 : Nat) < 97 ∧ (0 : Nat) < 97 :=
  ⟨by norm_num, by decide, by decide, by decide⟩

theorem witness_FieldPower : Nat.Prime 97 ∧ (0 : Nat) < 97 ∧ (96 : Nat) < 97 ∧ 1 ≤ 5 :=
  ⟨by norm_num, by decide, by decide, by decide⟩

/-- The smallest field too. -/
theorem witness_FieldInversion :
    Nat.Prime 97 ∧ Nat.Prime 2 ∧ (0 : Nat) < 2 ∧ (0 : Nat) < 49 ∧ 49 < 97 ∧ fmul 97 49 2 = 1 :=
  ⟨by norm_num, by norm_num, by decide, by decide, by decide, by decide⟩

theorem witness_DotProduct : Nat.Prime 97 := by norm_num

theorem witness_SboxPow5 : toy97.WellFormed ∧ toy97.sbox = .pow5 ∧ 96 < toy97.p :=
  ⟨toy97_wellFormed, rfl, by decide⟩

theorem witness_SboxInversion : toy97Inv.WellFormed ∧ toy97Inv.sbox = .inv ∧ 0 < toy97Inv.p ∧ 96 < toy97Inv.p :=
  ⟨toy97Inv_wellFormed, rfl, by decide, by decide⟩

theorem witness_MixIsLinear : toy97.WellFormed ∧ [1, 0, 0, 0, 0].length = toy97.w ∧ [0, 1, 2, 96, 97].length = toy97.w :=
  ⟨toy97_wellFormed, rfl, rfl⟩

/-- The last legal round of the second segment. -/
theorem witness_LrcLoadsWindow :
    load97.EngineEnabled ∧ (2 : BitVec 2) ≠ 0 ∧
      (4 : BitVec 11).toNat < segCount load97.cfg (2 : BitVec 2).toNat :=
  ⟨load97_enabled, by decide, by decide⟩

theorem witness_ArcAddsConstants :
    busy97.EngineEnabled ∧ [90, 39, 45, 44, 22].length = busy97.cfg.w ∧ [38, 45, 52, 59, 66].length = busy97.cfg.w ∧
      busy97.S = [90, 39, 45, 44, 22].map some ∧ busy97.K = [38, 45, 52, 59, 66].map some :=
  ⟨busy97_enabled, rfl, rfl, rfl, rfl⟩

theorem witness_SbfMapsEveryLane :
    busy97.EngineEnabled ∧ [90, 39, 45, 44, 22].length = busy97.cfg.w ∧ busy97.S = [90, 39, 45, 44, 22].map some :=
  ⟨busy97_enabled, rfl, rfl⟩

theorem witness_SbpMapsLaneZero :
    busy97.EngineEnabled ∧ busy97.S = some 90 :: [some 39, some 45, some 44, some 22] :=
  ⟨busy97_enabled, rfl⟩

theorem witness_MdsMultipliesByMatrix :
    busy97.EngineEnabled ∧ [90, 39, 45, 44, 22].length = busy97.cfg.w ∧
      busy97.S = [90, 39, 45, 44, 22].map some :=
  ⟨busy97_enabled, rfl, rfl⟩

theorem witness_NopChangesNothing :
    busy97.CodesLegal ∧ (done97.CodesLegal ∧ done97.phase = 4 ∧ done97.agenda = []) ∧
      (reset97.CodesLegal ∧ reset97.phase = 0 ∧ reset97.agenda = []) :=
  ⟨⟨by decide, by decide⟩, ⟨⟨by decide, by decide⟩, rfl, rfl⟩, ⟨by decide, by decide⟩, rfl, rfl⟩

theorem witness_MicroOperationFrame :
    (nextOf (exec .nop done97)).isSome ∧ (nextOf (exec (.lrc 1 0) load97)).isSome ∧ (nextOf (exec .arc busy97)).isSome ∧
    (nextOf (exec .sbf busy97)).isSome ∧ (nextOf (exec .sbp busy97)).isSome ∧ (nextOf (exec .mds busy97)).isSome := by
  decide

/-- A lane of S without a value, lane 0 without a value, a lane of K without a value, a result lane without a value. -/
theorem witness_ReadOfNoValueFaults :
    ((engineAt reset97 2 0 1 [some 1, some 2, some 3, some 4, none] (noLanes 5)).EngineEnabled ∧ 4 < toy97.w ∧
      laneOf [some 1, some 2, some 3, some 4, none] 4 = none) ∧
    ((engineAt reset97 2 0 2 (noLanes 5) (noLanes 5)).EngineEnabled ∧ laneOf (noLanes 5) 0 = none) ∧
    (load97.EngineEnabled ∧ laneOf load97.K 0 = none) ∧
    ((engineAt reset97 4 0 0 (noLanes 5) (noLanes 5)).phase = 4 ∧ laneOf (noLanes 5) 4 = none) :=
  ⟨⟨⟨rfl, by decide, by decide⟩, by decide, rfl⟩, ⟨⟨rfl, by decide, by decide⟩, rfl⟩, ⟨load97_enabled, rfl⟩, rfl, rfl⟩

theorem witness_ReservedLrcRefused :
    load97.EngineEnabled ∧ (1 : BitVec 2) ≠ 0 ∧ segCount load97.cfg (1 : BitVec 2).toNat ≤ (1 : BitVec 11).toNat :=
  ⟨load97_enabled, by decide, by decide⟩

/-- The first reserved code, in the ENGINE's turn and in HOST's. -/
theorem witness_ReservedPhaseRefused :
    5 ≤ (engineAt reset97 5 0 0 [] []).phase.toNat ∧ (engineAt reset97 5 0 0 [] []).NoResetNext ∧
      State.NoResetNext { engineAt reset97 7 0 0 [] [] with agenda := [.host ⟨false, 1, []⟩] } :=
  ⟨by decide, fun _ _ h => (nomatch h), fun d rest h => by cases h; rfl⟩

theorem witness_SchedulerWords :
    (done97.phase = 4 ∧ reset97.phase = 0) ∧ (load97.phase = 1 ∧ load97.step = 0) ∧
    (busy97.phase = 2 ∧ busy97.step = 1) ∧ (engineAt reset97 3 0 2 [] []).step = 2 ∧
    (engineAt reset97 3 0 3 [] []).step = 3 := by decide

theorem witness_SchedulerNeverReserved : busy97.Inv := busy97_inv

/-- Inside a round; the last step of a round before the last; the last step of the last round; the codes between two
phases when a phase is empty. -/
theorem witness_NextPosition :
    toy97.WellFormed ∧ (2 : BitVec 2).toNat < 3 ∧ (3 : BitVec 11).toNat + 1 < phaseCount toy97 .part ∧
      phaseCount toy97 .part ≤ (4 : BitVec 11).toNat + 1 ∧ Phase.part ≠ .done ∧ afterPhase toy97 .part ≠ .done ∧
      (toyNoPartial.WellFormed ∧ (phaseCode .full1).toNat < (phaseCode .part).toNat ∧
        (phaseCode .part).toNat < (phaseCode (afterPhase toyNoPartial .full1)).toNat) :=
  ⟨toy97_wellFormed, by decide, by decide, by decide, by decide, by decide, toyNoPartial_wellFormed, by decide, by decide⟩

theorem witness_EmptyPhasesSkipped :
    (toyNoPartial.WellFormed ∧ toyNoPartial.rp = 0 ∧ 0 < toyNoPartial.rf ∧ afterPhase toyNoPartial .idle ≠ .done) ∧
    (toyNoFull.WellFormed ∧ toyNoFull.rf = 0 ∧ 0 < toyNoFull.rp) ∧
    (toyNoRounds.WellFormed ∧ toyNoRounds.rf = 0 ∧ toyNoRounds.rp = 0 ∧ resetNoRounds.Ready ∧
      AcceptedInput toyNoRounds (port [22, 0, 1])) :=
  ⟨⟨toyNoPartial_wellFormed, rfl, by decide, by decide⟩, ⟨toyNoFull_wellFormed, rfl, by decide⟩,
    toyNoRounds_wellFormed, rfl, rfl, reset_ready _ _, by decide, by simp [port, toyNoRounds, toy23]⟩

theorem witness_PositionAdvancesByOne :
    toy97.WellFormed ∧ phaseBusy .full2 = true ∧ (0 : BitVec 11).toNat < phaseCount toy97 .full2 :=
  ⟨toy97_wellFormed, rfl, by decide⟩

/-- The end of FULL1, and an accepted START. -/
theorem witness_PhaseChangeRestartsRound :
    (nextOf (step (engineAt reset97 1 0 3 (held [49, 90, 68, 88, 86]) (noLanes 5)))).map (·.phase) = some 2 ∧
    (nextOf (step { reset97 with agenda := [.host ⟨false, 1, port [0, 0, 0, 0, 0]⟩] })).map (·.phase) =
      some 1 := by decide

theorem witness_ScheduleIgnoresData :
    (nextOf (step busy97)).isSome ∧ (nextOf (step { busy97 with S := held [0, 0, 0, 0, 0], K := held [1, 1, 1, 1, 1] })).isSome := by
  decide

theorem witness_StepRunsEmittedWord :
    busy97.CodesLegal ∧ busy97.fault = false ∧ busy97.emitted = some 0x4000 ∧ decodeCw busy97.cfg 0x4000 = .ok .arc ∧
      busy97.agenda = [] ∧ ({ busy97 with agenda := [.engine] } : State).agenda = .engine :: [] :=
  ⟨⟨by decide, by decide⟩, rfl, rfl, rfl, rfl, rfl⟩

theorem witness_StepRunsCommand :
    ({ done97 with agenda := [.host ⟨false, 2, []⟩] } : State).agenda = .host ⟨false, 2, []⟩ :: [] ∧
      decodeCmd 2 [] = .ok .ack := ⟨rfl, rfl⟩

theorem witness_NoneChangesNothing :
    busy97.CodesLegal ∧
      (State.CodesLegal { busy97 with agenda := [.host ⟨false, 0, []⟩] } ∧ (⟨false, 0, []⟩ : PortDrive).rst = false ∧
        (⟨false, 0, []⟩ : PortDrive).cmd = 0) :=
  ⟨⟨by decide, by decide⟩, ⟨by decide, by decide⟩, rfl, rfl⟩

/-- A faulted, a busy and two ready engines; a lane of exactly P and lanes of P - 1. -/
theorem witness_StartBeginsInvocation :
    (port [0, 97, 0, 0, 0]).length = toy97.w ∧ (port [96, 96, 96, 96, 96]).length = toy97.w ∧
    (faulted97.CodesLegal ∧ faulted97.fault = true) ∧ (busy97.CodesLegal ∧ busy97.fault = false ∧ busy97.phase = 2) ∧
    (done97.CodesLegal ∧ done97.fault = false ∧ done97.phase = 4 ∧ (∃ v ∈ port [0, 97, 0, 0, 0], toy97.p ≤ v.toNat)) ∧
    (reset97.CodesLegal ∧ reset97.phase = 0 ∧
      (∀ v ∈ port [96, 96, 96, 96, 96], v.toNat < toy97.p) ∧ 0 < half toy97 + toy97.rp) :=
  ⟨by decide, by decide, ⟨⟨by decide, by decide⟩, rfl⟩, ⟨⟨by decide, by decide⟩, rfl, rfl⟩,
    ⟨⟨by decide, by decide⟩, rfl, rfl, by simp [port, toy97]⟩, ⟨by decide, by decide⟩, rfl, by simp [port, toy97], by decide⟩

theorem witness_AckReleasesResult :
    (faulted97.CodesLegal ∧ faulted97.fault = true) ∧ (done97.CodesLegal ∧ done97.fault = false ∧ done97.phase = 4) ∧
      (busy97.CodesLegal ∧ busy97.fault = false ∧ busy97.phase ≠ 4) :=
  ⟨⟨⟨by decide, by decide⟩, rfl⟩, ⟨⟨by decide, by decide⟩, rfl, rfl⟩, ⟨by decide, by decide⟩, rfl, by decide⟩

/-- An accepted and a rejected command, and NONE. -/
theorem witness_CommandFrame :
    (nextOf (exec .ack done97)).map (·.fault) = some done97.fault ∧ (nextOf (exec .ack busy97)).map (·.fault) = some true ∧
    busy97.fault = false ∧ (nextOf (exec (.start (port [0, 0, 0, 0, 0])) done97)).isSome ∧
    (nextOf (exec .noCommand busy97)).isSome := by decide

theorem witness_BadCommandFaults :
    busy97.EngineEnabled ∧
    (reset97.CodesLegal ∧ reset97.fault = false ∧ reset97.phase ≠ 4) ∧
    (State.CodesLegal { done97 with agenda := [.host ⟨false, 3, []⟩] } ∧ (⟨false, 3, []⟩ : PortDrive).cmd = 3) :=
  ⟨busy97_enabled, ⟨⟨by decide, by decide⟩, rfl, by decide⟩, ⟨by decide, by decide⟩, rfl⟩

theorem witness_NonCanonicalStartFaults :
    done97.Ready ∧ (port [0, 0, 0, 0, 97]).length = done97.cfg.w ∧ 97#256 ∈ port [0, 0, 0, 0, 97] ∧
      done97.cfg.p ≤ (97#256).toNat :=
  ⟨done97_ready, by decide, by decide, by decide⟩

theorem witness_FaultHaltsUntilReset :
    faulted97.CodesLegal ∧ faulted97.fault = true ∧ faulted97.agenda = [] ∧
      State.CodesLegal { faulted97 with agenda := [.engine] } ∧
      State.CodesLegal { faulted97 with agenda := [.host ⟨false, 3, []⟩] } ∧
      State.CodesLegal { faulted97 with agenda := [.host ⟨true, 0, []⟩] } :=
  ⟨⟨by decide, by decide⟩, rfl, rfl, ⟨by decide, by decide⟩, ⟨by decide, by decide⟩, by decide, by decide⟩

/-- A reset of a faulted engine with START beside it, and that it clears FAULT. -/
theorem witness_ResetFromAnyState :
    (⟨true, 1, port [0, 0, 0, 0, 0]⟩ : PortDrive).rst = true ∧
    ({ faulted97 with agenda := [.host ⟨true, 1, []⟩] } : State).fault = true ∧
    (nextOf (step { faulted97 with agenda := [.host ⟨true, 1, []⟩] })).map (·.fault) = some false := by decide

/-- A write of S by the ENGINE, and by ACK. -/
theorem witness_AgentsNeverShareS :
    (nextOf (step busy97)).map (fun t => decide (t.S ≠ busy97.S)) = some true ∧
    (nextOf (step { done97 with agenda := [.host ⟨false, 2, []⟩] })).map (fun t => decide (t.S ≠ done97.S)) =
      some true := by decide

theorem witness_StatusBits : done97.fault = false ∧ done97.fcause = 0 ∧ done97.CodesLegal :=
  ⟨rfl, rfl, by decide, by decide⟩

theorem witness_OutOnlyInDone :
    busy97.phase ≠ 4 ∧ ({ done97 with fault := true } : State).fault = true ∧ done97.phase = 4 ∧ done97.fault = false ∧
      [86, 48, 40, 73, 53].length = done97.cfg.w ∧ done97.S = [86, 48, 40, 73, 53].map some := by decide

theorem witness_InvariantKept : busy97.Inv ∧ (nextOf (step busy97)).isSome :=
  ⟨busy97_inv, by decide⟩

theorem witness_NoStepStops : busy97.Inv ∧ ∀ turn ∈ busy97.agenda, turn.Drivable busy97.cfg :=
  ⟨busy97_inv, fun _ h => (nomatch h)⟩

/-- The same with turns of both agents to come. -/
theorem witness_NoStepStops_agenda :
    ∀ turn ∈ [Turn.engine, .host ⟨false, 1, port [0, 0, 0, 0, 97]⟩, .host ⟨true, 3, port [1, 1, 1, 1, 1]⟩],
      turn.Drivable toy97 := by
  simp [Turn.Drivable, port, toy97]

theorem witness_CompletesInExactSteps :
    reset97.Ready ∧ reset97.agenda = [] ∧
      AcceptedInput reset97.cfg (port [0, 0, 0, 0, 0]) ∧
      27 < 4 * (reset97.cfg.rf + reset97.cfg.rp) :=
  ⟨reset_ready _ _, rfl, zeros_accepted, by decide⟩

theorem witness_ComputesPermutation :
    done97.Ready ∧ done97.agenda = [] ∧ AcceptedInput done97.cfg (port [0, 0, 0, 0, 0]) :=
  ⟨done97_ready, rfl, zeros_accepted⟩

theorem witness_PhaseBoundaryStates :
    reset97.Ready ∧ reset97.agenda = [] ∧
      AcceptedInput reset97.cfg (port [1, 2, 3, 4, 5]) :=
  ⟨reset_ready _ _, rfl, by decide, by simp [port, reset97, State.resetWith, toy97]⟩

theorem witness_EmitsPermuteProgram :
    reset97.Ready ∧ reset97.agenda = [] ∧
      AcceptedInput reset97.cfg (port [96, 0, 1, 50, 7]) ∧
      0 < 4 * (reset97.cfg.rf + reset97.cfg.rp) :=
  ⟨reset_ready _ _, rfl, ⟨by decide, by simp [port, reset97, State.resetWith, toy97]⟩, by decide⟩

theorem witness_WorkPerInvocation : toyNoFull.WellFormed ∧ toy97.WellFormed := ⟨toyNoFull_wellFormed, toy97_wellFormed⟩

/-- Two engines whose registers differ. -/
theorem witness_NothingSurvivesStart :
    reset97.Ready ∧ done97.Ready ∧ done97.cfg = reset97.cfg ∧
      done97.fcause = reset97.fcause ∧ done97.agenda = reset97.agenda ∧
      AcceptedInput reset97.cfg (port [0, 0, 0, 0, 0]) :=
  ⟨reset_ready _ _, done97_ready, rfl, rfl, rfl, zeros_accepted⟩

/-- 31 bytes; the budgets on both sides of the cost, 50; the first element that is not canonical. -/
theorem witness_RunErrors :
    (List.replicate 31 (0 : Byte)).length ≠ 32 ∧ ((be32 0).length = 32 ∧ (49#64).toNat < toy97.w * 10) ∧
      ((be32 97).length = 32 ∧ toy97.w * 10 ≤ (50#64).toNat ∧ toy97.p ≤ unbe32 (be32 97) ∧ toy97.noncanon = .reject) := by
  decide

/-- A canonical element, and one that Reduce accepts. -/
theorem witness_RunSucceeds :
    (reset97.Ready ∧ (be32 96).length = 32 ∧
      toy97.w * 10 ≤ (50#64).toNat ∧ unbe32 (be32 96) < toy97.p ∧ 96 = unbe32 (be32 96)) ∧
    (reset97Reduce.Ready ∧ (be32 139).length = 32 ∧
      toy97Reduce.p ≤ unbe32 (be32 139) ∧ toy97Reduce.noncanon = .reduce ∧ 42 = unbe32 (be32 139) % toy97Reduce.p) :=
  ⟨⟨reset_ready _ _, by decide, by decide, by decide, by decide⟩,
    reset_ready _ _, by decide, by decide, by decide, by decide⟩

end Sys2Proof.Tests
end

section
/-! START on a ready engine (44_scheduler.md R170): the state an accepted START leaves, and that it depends on the
configuration, the fault registers, the agenda and the operand alone (10_state.md R34). -/

namespace Sys2Proof.Machine

/-- States with the same fields are the same; `State.wf` is a proof and needs no clause. -/
theorem State.eq_of_fields_eq {s t : State} (hcfg : s.cfg = t.cfg) (hS : s.S = t.S) (hK : s.K = t.K)
    (hphase : s.phase = t.phase) (hround : s.round = t.round) (hstep : s.step = t.step)
    (hfault : s.fault = t.fault) (hfcause : s.fcause = t.fcause) (hagenda : s.agenda = t.agenda) : s = t := by
  cases s
  cases t
  simp_all only

theorem exec_start (inp : List Lane) (s : State) : exec (.start inp) s = execStart inp s := rfl

/-- No lane of an accepted operand is at or above P. -/
theorem AcceptedInput.anyNonCanonical_eq_false {c : Config} {inp : List Lane} (h : AcceptedInput c inp) :
    anyNonCanonical c inp = false := by
  simpa [anyNonCanonical] using h.2

/-- The engine right after an accepted START (44_scheduler.md R170). -/
def started (inp : List Lane) (s : State) : State :=
  writePc (dropK (writeS s (inp.map (·.toNat)))) ⟨phaseCode (afterPhase s.cfg .idle), 0, 0⟩

/-- A ready engine answers START with an accepted input by `started`: R219's three tests all pass. -/
theorem exec_start_of_ready {s : State} {inp : List Lane} (hs : s.Ready) (hin : AcceptedInput s.cfg inp) :
    exec (.start inp) s = .next (started inp s) := by
  obtain ⟨hfault, hfcause, hphase⟩ := hs
  obtain ⟨p, hp, hwaiting⟩ := phaseOf_waiting hphase
  rw [exec_start, execStart, onCommand_eq (phaseOf_eq_some_iff.1 hp) hfcause hfault]
  simp [hwaiting, hin.1, hin.anyNonCanonical_eq_false, started]

/-- START overwrites every register but FAULT and FCAUSE with a value of the configuration and the operand, so what
the registers held before is lost. -/
theorem started_congr {s s' : State} (inp : List Lane) (hcfg : s'.cfg = s.cfg) (hfault : s'.fault = s.fault)
    (hfcause : s'.fcause = s.fcause) (hagenda : s'.agenda = s.agenda) : started inp s' = started inp s := by
  apply State.eq_of_fields_eq <;> simp [started, hcfg, hfault, hfcause, hagenda]

/-- Settles O57: both engines reach `started`, which reads no register that their hypotheses do not fix. -/
theorem nothingSurvivesStart : Obligations.NothingSurvivesStart := by
  intro s s' inp hs hs' hcfg hfcause hagenda hin
  have hsame : started inp s' = started inp s := started_congr inp hcfg (hs'.1.trans hs.1.symm) hfcause hagenda
  refine ⟨started inp s, exec_start_of_ready hs hin, ?_⟩
  rw [← hsame]
  exact exec_start_of_ready hs' (hcfg ▸ hin)

end Sys2Proof.Machine
end

section
/-! What an instruction and a turn of either agent can do, said once per meaning, and from it that none of them writes a
ROM (20_memory.md R51). -/

namespace Sys2Proof.Machine

/-! ## What a meaning that answers a next state has done -/

/-- NOP and NONE have no effect in any phase (44_scheduler.md R165, R172). -/
theorem onLegal_self_next {s t : State} (h : onLegal s (fun _ => .next s) = .next t) : t = s := by
  obtain ⟨p, -, -, hk⟩ := onLegal_next h
  cases hk
  rfl

/-- The only ways through `onEngine`, by the condition of 44_scheduler.md R166. -/
theorem onEngine_next_enabled {s t : State} {k : Phase → Out} (h : onEngine s k = .next t) :
    (s.fault = true ∧ t = s) ∨ (s.EngineEnabled ∧ ∃ p, s.phase = phaseCode p ∧ k p = .next t) := by
  obtain halted | ⟨hfault, p, hp, hbusy, hcause, hk⟩ := onEngine_next h
  · exact .inl halted
  · exact .inr ⟨⟨hfault, hcause, hp ▸ (phaseBusy_iff p).1 hbusy⟩, p, hp, hk⟩

/-- LRC answers a next state (41_round_constants.md R130). -/
theorem execLrc_next {s t : State} {seg : BitVec 2} {rnd : BitVec 11} (h : execLrc seg rnd s = .next t) :
    (s.fault = true ∧ t = s) ∨ (s.EngineEnabled ∧ ∃ p ks, s.phase = phaseCode p ∧ seg ≠ 0 ∧
      rnd.toNat < segCount s.cfg seg.toNat ∧ romWindow s.cfg seg.toNat rnd.toNat = some ks ∧
      t = advance p (writeK s ks)) := by
  refine (onEngine_next_enabled h).imp_right (And.imp_right ?_)
  rintro ⟨p, hp, hk⟩
  split at hk
  · cases hk
  · next hseg =>
    split at hk
    · next hrnd =>
      obtain ⟨ks, hks, hk⟩ := withRom_next hk
      cases hk
      exact ⟨p, ks, hp, hseg, hrnd, hks, rfl⟩
    · cases hk

/-- ARC answers a next state (41_round_constants.md R131). -/
theorem execArc_next {s t : State} (h : execArc s = .next t) :
    (s.fault = true ∧ t = s) ∨ (s.EngineEnabled ∧ ∃ p vs ks, s.phase = phaseCode p ∧
      readLanes s.cfg.w s.S = some vs ∧ readLanes s.cfg.w s.K = some ks ∧
      t = advance p (writeS s (List.zipWith (fadd s.cfg.p) vs ks))) := by
  refine (onEngine_next_enabled h).imp_right (And.imp_right ?_)
  rintro ⟨p, hp, hk⟩
  obtain ⟨vs, hvs, hk⟩ := withLanes_next hk
  obtain ⟨ks, hks, hk⟩ := withLanes_next hk
  cases hk
  exact ⟨p, vs, ks, hp, hvs, hks, rfl⟩

/-- SBF answers a next state (42_sbox.md R140). -/
theorem execSbf_next {s t : State} (h : execSbf s = .next t) :
    (s.fault = true ∧ t = s) ∨ (s.EngineEnabled ∧ ∃ p vs, s.phase = phaseCode p ∧
      readLanes s.cfg.w s.S = some vs ∧ t = advance p (writeS s (vs.map (sboxMap s.cfg)))) := by
  refine (onEngine_next_enabled h).imp_right (And.imp_right ?_)
  rintro ⟨p, hp, hk⟩
  obtain ⟨vs, hvs, hk⟩ := withLanes_next hk
  cases hk
  exact ⟨p, vs, hp, hvs, rfl⟩

/-- SBP answers a next state (42_sbox.md R141). -/
theorem execSbp_next {s t : State} (h : execSbp s = .next t) :
    (s.fault = true ∧ t = s) ∨ (s.EngineEnabled ∧ ∃ p v, s.phase = phaseCode p ∧
      laneOf s.S 0 = some v ∧ t = advance p (writeLane0 s (sboxMap s.cfg v))) := by
  refine (onEngine_next_enabled h).imp_right (And.imp_right ?_)
  rintro ⟨p, hp, hk⟩
  split at hk
  · next v hv =>
    cases hk
    exact ⟨p, v, hp, hv, rfl⟩
  · cases hk

/-- MDS answers a next state (43_mds.md R150). -/
theorem execMds_next {s t : State} (h : execMds s = .next t) :
    (s.fault = true ∧ t = s) ∨ (s.EngineEnabled ∧ ∃ p vs rows, s.phase = phaseCode p ∧
      readLanes s.cfg.w s.S = some vs ∧ romMatrix s.cfg = some rows ∧
      t = advance p (writeS s (rows.map fun row => fdot s.cfg.p row vs))) := by
  refine (onEngine_next_enabled h).imp_right (And.imp_right ?_)
  rintro ⟨p, hp, hk⟩
  obtain ⟨vs, hvs, hk⟩ := withLanes_next hk
  obtain ⟨rows, hrows, hk⟩ := withRom_next hk
  cases hk
  exact ⟨p, vs, rows, hp, hvs, hrows, rfl⟩

/-- START answers a next state (44_scheduler.md R170): halted, rejected, faulted on its operand, or accepted. -/
theorem execStart_next {s t : State} {inp : List Lane} (h : execStart inp s = .next t) :
    (s.fault = true ∧ t = s) ∨ (s.fault = false ∧ s.fcause ≠ 3 ∧ ∃ p, s.phase = phaseCode p ∧
      ((phaseBusy p = true ∧ t = raiseFault badCmd s) ∨
        (phaseBusy p = false ∧ inp.length = s.cfg.w ∧
          ((anyNonCanonical s.cfg inp = true ∧ t = raiseFault nonCanonIn s) ∨
            (anyNonCanonical s.cfg inp = false ∧ t = started inp s))))) := by
  refine (onCommand_next h).imp_right (And.imp_right ?_)
  rintro ⟨p, hp, hcause, hk⟩
  refine ⟨hcause, p, hp, ?_⟩
  split at hk
  · next hbusy =>
    cases hk
    exact .inl ⟨hbusy, rfl⟩
  · next hbusy =>
    split at hk
    · cases hk
    · next hlen =>
      refine .inr ⟨Bool.eq_false_iff.2 hbusy, not_not.1 hlen, ?_⟩
      split at hk
      · next hbad =>
        cases hk
        exact .inl ⟨hbad, rfl⟩
      · next hgood =>
        cases hk
        exact .inr ⟨Bool.eq_false_iff.2 hgood, rfl⟩

/-- ACK answers a next state (44_scheduler.md R171). -/
theorem execAck_next {s t : State} (h : execAck s = .next t) :
    (s.fault = true ∧ t = s) ∨ (s.fault = false ∧ s.fcause ≠ 3 ∧ ∃ p, s.phase = phaseCode p ∧
      ((p = .done ∧ t = writePc (dropAll s) ⟨phaseCode .idle, 0, 0⟩) ∨ (p ≠ .done ∧ t = raiseFault badCmd s))) := by
  refine (onCommand_next h).imp_right (And.imp_right ?_)
  rintro ⟨p, hp, hcause, hk⟩
  refine ⟨hcause, p, hp, ?_⟩
  split at hk
  · next hdone =>
    cases hk
    exact .inl ⟨hdone, rfl⟩
  · next hdone =>
    cases hk
    exact .inr ⟨hdone, rfl⟩

/-! ## What a turn that answers a next state has done -/

/-- The ENGINE's turn: halted, or the micro-operation of the word its scheduler emits (44_scheduler.md R166). -/
theorem engineTurn_next {s t : State} (h : engineTurn s = .next t) :
    (s.fault = true ∧ t = s) ∨ (s.fault = false ∧ ∃ p i, s.phase = phaseCode p ∧
      decodeCw s.cfg (schedWord p s.round s.step) = .ok i ∧ exec i s = .next t) := by
  refine (onCommand_next h).imp_right (And.imp_right ?_)
  rintro ⟨p, hp, -, hk⟩
  split at hk
  · next i hi => exact ⟨p, i, hp, hi, hk⟩
  · cases hk

/-- HOST's turn: a reset, a command, or the reserved code (70_reset_and_hazards.md R240; 60_exceptions.md R219). -/
theorem hostTurn_next {s t : State} {d : PortDrive} (h : hostTurn d s = .next t) :
    (d.rst = true ∧ t = resetRegs s) ∨ (d.rst = false ∧
      ((∃ i, decodeCmd d.cmd d.inp = .ok i ∧ exec i s = .next t) ∨
        (∃ why, decodeCmd d.cmd d.inp = .error why ∧ t = raiseFault badCmd s))) := by
  unfold hostTurn at h
  split at h
  · next hrst =>
    cases h
    exact .inl ⟨hrst, rfl⟩
  · next hrst =>
    refine .inr ⟨Bool.eq_false_iff.2 hrst, ?_⟩
    split at h
    · next i hi => exact .inl ⟨i, hi, h⟩
    · next why hwhy =>
      refine .inr ⟨why, hwhy, ?_⟩
      obtain ⟨hfault, rfl⟩ | ⟨-, p, -, -, hk⟩ := onCommand_next h
      · exact (raiseFault_of_set hfault badCmd).symm
      · cases hk
        rfl

/-- A step is the first turn of the agenda, or the ENGINE's when there is none (00_scope.md R7). -/
theorem step_next {s t : State} (h : step s = .next t) :
    (s.agenda = [] ∧ engineTurn s = .next t) ∨
      ∃ turn rest, s.agenda = turn :: rest ∧ takeTurn turn (writeAgenda s rest) = .next t := by
  unfold step at h
  split at h
  · next hnil => exact .inl ⟨hnil, h⟩
  · next turn rest hcons => exact .inr ⟨turn, rest, hcons, h⟩

/-! ## The configuration, and with it both ROMs, is kept -/

@[simp] theorem started_cfg (inp : List Lane) (s : State) : (started inp s).cfg = s.cfg := rfl

/-- No instruction writes the configuration: every state one can answer is made of updates of the registers. -/
theorem exec_cfg {i : Instr} {s t : State} (h : exec i s = .next t) : t.cfg = s.cfg := by
  cases i with
  | nop => rw [onLegal_self_next h]
  | lrc seg rnd => obtain ⟨-, rfl⟩ | ⟨-, p, ks, -, -, -, -, rfl⟩ := execLrc_next h <;> rfl
  | arc => obtain ⟨-, rfl⟩ | ⟨-, p, vs, ks, -, -, -, rfl⟩ := execArc_next h <;> rfl
  | sbf => obtain ⟨-, rfl⟩ | ⟨-, p, vs, -, -, rfl⟩ := execSbf_next h <;> rfl
  | sbp => obtain ⟨-, rfl⟩ | ⟨-, p, v, -, -, rfl⟩ := execSbp_next h <;> rfl
  | mds => obtain ⟨-, rfl⟩ | ⟨-, p, vs, rows, -, -, -, rfl⟩ := execMds_next h <;> rfl
  | noCommand => rw [onLegal_self_next h]
  | start inp =>
    obtain ⟨-, rfl⟩ | ⟨-, -, p, -, ⟨-, rfl⟩ | ⟨-, -, ⟨-, rfl⟩ | ⟨-, rfl⟩⟩⟩ := execStart_next h
    · rfl
    · exact raiseFault_cfg badCmd s
    · exact raiseFault_cfg nonCanonIn s
    · exact started_cfg inp s
  | ack =>
    obtain ⟨-, rfl⟩ | ⟨-, -, p, -, ⟨-, rfl⟩ | ⟨-, rfl⟩⟩ := execAck_next h
    · rfl
    · rfl
    · exact raiseFault_cfg badCmd s

theorem engineTurn_cfg {s t : State} (h : engineTurn s = .next t) : t.cfg = s.cfg := by
  obtain ⟨-, rfl⟩ | ⟨-, p, i, -, -, hexec⟩ := engineTurn_next h
  · rfl
  · exact exec_cfg hexec

theorem hostTurn_cfg {s t : State} {d : PortDrive} (h : hostTurn d s = .next t) : t.cfg = s.cfg := by
  obtain ⟨-, rfl⟩ | ⟨-, ⟨i, -, hexec⟩ | ⟨why, -, rfl⟩⟩ := hostTurn_next h
  · exact resetRegs_cfg s
  · exact exec_cfg hexec
  · exact raiseFault_cfg badCmd s

/-- No step of either agent writes the configuration, a reset among them. -/
theorem step_cfg {s t : State} (h : step s = .next t) : t.cfg = s.cfg := by
  obtain ⟨-, hturn⟩ | ⟨turn, rest, -, hturn⟩ := step_next h
  · exact engineTurn_cfg hturn
  · cases turn with
    | engine => exact (engineTurn_cfg hturn).trans (writeAgenda_cfg s rest)
    | host d => exact (hostTurn_cfg hturn).trans (writeAgenda_cfg s rest)

/-- Both ROMs are tables of the configuration, so a state with the same configuration has the same words. -/
theorem roms_eq_of_cfg_eq {s t : State} (h : t.cfg = s.cfg) :
    t.cfg = s.cfg ∧ (∀ a, romRC t.cfg a = romRC s.cfg a) ∧ ∀ a b, romM t.cfg a b = romM s.cfg a b :=
  ⟨h, fun a => by rw [h], fun a b => by rw [h]⟩

/-- Settles O9: neither an instruction nor a step writes the configuration, which holds both ROMs. -/
theorem romsNeverWritten : Obligations.RomsNeverWritten :=
  ⟨fun _ _ _ h => roms_eq_of_cfg_eq (exec_cfg h), fun _ _ h => roms_eq_of_cfg_eq (step_cfg h)⟩

end Sys2Proof.Machine
end

section
/-! The big-endian bytes of a number, for every width; `be32` is the width of a serialised field element
(30_encoding.md R80, R81). -/

namespace Sys2Proof.Machine

/-- The big-endian form of `v` in `n` bytes, byte 0 the most significant. -/
def beBytes (n v : Nat) : List Byte := (List.range n).map fun k => BitVec.ofNat 8 (v / 256 ^ (n - 1 - k))

theorem be32_eq_beBytes (v : Nat) : be32 v = beBytes 32 v := by
  simp only [be32, beBytes, Config.feBytes, pow_mul, show (2 ^ 8 : Nat) = 256 from rfl]

@[simp] theorem beBytes_length (n v : Nat) : (beBytes n v).length = n := by simp [beBytes]

theorem beBytes_getElem? {n k : Nat} (v : Nat) (hk : k < n) :
    (beBytes n v)[k]? = some (BitVec.ofNat 8 (v / 256 ^ (n - 1 - k))) := by
  simp [beBytes, hk]

/-- The last byte is the lowest one, and the bytes before it are those of the quotient. -/
theorem beBytes_succ (n v : Nat) : beBytes (n + 1) v = beBytes n (v / 256) ++ [BitVec.ofNat 8 v] := by
  have hbyte : ∀ k ∈ List.range n, BitVec.ofNat 8 (v / 256 ^ (n - k)) =
      BitVec.ofNat 8 (v / 256 / 256 ^ (n - 1 - k)) := by
    intro k hk
    have hexp : n - k = n - 1 - k + 1 := by
      have := List.mem_range.1 hk
      omega
    rw [hexp, pow_succ', Nat.div_div_eq_div_mul]
  simpa [beBytes, List.range_succ] using hbyte

@[simp] theorem unbe32_nil : unbe32 [] = 0 := rfl

@[simp] theorem unbe32_append_singleton (bytes : List Byte) (b : Byte) :
    unbe32 (bytes ++ [b]) = unbe32 bytes * 256 + b.toNat := by
  simp [unbe32]

theorem unbe32_beBytes (n v : Nat) : unbe32 (beBytes n v) = v % 256 ^ n := by
  induction n generalizing v with
  | zero => simp [beBytes, Nat.mod_one]
  | succ n ih =>
    rw [beBytes_succ, unbe32_append_singleton, ih, BitVec.toNat_ofNat, pow_succ' 256 n, Nat.mod_mul]
    omega

theorem beBytes_unbe32 (bytes : List Byte) : beBytes bytes.length (unbe32 bytes) = bytes := by
  induction bytes using List.reverseRecOn with
  | nil => rfl
  | append_singleton bytes b ih =>
    have hquot : (unbe32 bytes * 256 + b.toNat) / 256 = unbe32 bytes := by
      have := b.isLt
      omega
    have hlast : BitVec.ofNat 8 (unbe32 bytes * 256 + b.toNat) = b := by
      apply BitVec.eq_of_toNat_eq
      have := b.isLt
      rw [BitVec.toNat_ofNat]
      omega
    rw [List.length_append, List.length_singleton, beBytes_succ, unbe32_append_singleton, hquot, hlast, ih]

theorem unbe32_lt (bytes : List Byte) : unbe32 bytes < 256 ^ bytes.length := by
  have hmod := unbe32_beBytes bytes.length (unbe32 bytes)
  rw [beBytes_unbe32] at hmod
  rw [hmod]
  exact Nat.mod_lt _ (by positivity)

/-- Settles O5: the round trips of `beBytes` at 32 bytes, where 256 ^ 32 = 2 ^ 256. -/
theorem bytesRoundTrip : Obligations.BytesRoundTrip := by
  have hsize : (256 : Nat) ^ 32 = 2 ^ 256 := by norm_num
  refine ⟨fun v hv => ?_, fun bytes hlen => ?_⟩
  · rw [be32_eq_beBytes]
    refine ⟨beBytes_length 32 v, ?_, fun k hk => beBytes_getElem? v hk⟩
    rw [unbe32_beBytes, hsize, Nat.mod_eq_of_lt hv]
  · rw [be32_eq_beBytes, ← hsize, ← hlen]
    exact ⟨beBytes_unbe32 bytes, unbe32_lt bytes⟩

end Sys2Proof.Machine
end

section
/-! LRC and ARC on an engine that has a step (41_round_constants.md R130, R131): that they complete, and the state they
leave. -/

namespace Sys2Proof.Machine

theorem exec_lrc (seg : BitVec 2) (rnd : BitVec 11) (s : State) : exec (.lrc seg rnd) s = execLrc seg rnd s := rfl

theorem exec_arc (s : State) : exec .arc s = execArc s := rfl

/-- A micro-operation that in every phase writes some registers and applies NEXT leaves the position `nextPos`,
if what it writes first is not what NEXT reads. -/
theorem onEngine_of_advance {s u : State} {k : Phase → Out} (hs : s.EngineEnabled)
    (hk : ∀ p, k p = .next (advance p u)) (hcfg : u.cfg = s.cfg) (hround : u.round = s.round)
    (hstep : u.step = s.step) : onEngine s k = .next (writePc u s.nextPos) := by
  obtain ⟨p, hp, -, hrun⟩ := onEngine_eq hs k
  rw [hrun, hk, advance, nextPos_eq hp, hcfg, hround, hstep]

theorem withLanes_map_some {s : State} {vs : List Nat} (h : vs.length = s.cfg.w) (k : List Nat → Out) :
    withLanes s (vs.map some) k = k vs := by
  rw [withLanes, readLanes_map_some h]

/-- The words of the window of round r of a segment (20_memory.md R55), as one piece of the ROM. -/
def windowWords (c : Config) (seg r : Nat) : List Nat := (c.rc.drop (segBase c seg + r * c.w)).take c.w

theorem romWindow_eq_windowWords {c : Config} (hw : c.WellFormed) {seg r : Nat} (hr : r < segCount c seg) :
    romWindow c seg r = some (windowWords c seg r) := romWindow_eq hw hr

theorem windowWords_getElem? (c : Config) (seg r : Nat) {i : Nat} (hi : i < c.w) :
    (windowWords c seg r)[i]? = c.rc[segBase c seg + r * c.w + i]? := by
  simp [windowWords, hi]

theorem windowWords_length {c : Config} (hw : c.WellFormed) {seg r : Nat} (hr : r < segCount c seg) :
    (windowWords c seg r).length = c.w := by
  have hgather := (gather_eq_some_iff _ _).1 (romWindow_eq_windowWords hw hr)
  simpa using (congrArg List.length hgather).symm

/-- The word of an LRC from its operands (30_encoding.md R87). -/
theorem cwOf_lrc_toNat (seg : BitVec 2) (rnd : BitVec 11) :
    (cwOf 1 seg rnd).toNat = 0x2000 + seg.toNat * 0x800 + rnd.toNat := by
  rw [Laws.TableRow.cwOf_toNat, show (1 : BitVec 3).toNat = 1 from rfl]
  omega

/-- A legal LRC completes: its window lies in the ROM, so no access is refused. -/
theorem execLrc_eq {s : State} {seg : BitVec 2} {rnd : BitVec 11} (hs : s.EngineEnabled) (hseg : seg ≠ 0)
    (hrnd : rnd.toNat < segCount s.cfg seg.toNat) :
    execLrc seg rnd s = .next (writePc (writeK s (windowWords s.cfg seg.toNat rnd.toNat)) s.nextPos) := by
  refine onEngine_of_advance hs (fun p => ?_) rfl rfl rfl
  rw [if_neg hseg, if_pos hrnd, romWindow_eq_windowWords s.wf hrnd, withRom]

/-- ARC completes where S and K hold values. -/
theorem execArc_eq {s : State} {vs ks : List Nat} (hs : s.EngineEnabled) (hvs : vs.length = s.cfg.w)
    (hks : ks.length = s.cfg.w) (hS : s.S = vs.map some) (hK : s.K = ks.map some) :
    execArc s = .next (writePc (writeS s (List.zipWith (fadd s.cfg.p) vs ks)) s.nextPos) := by
  refine onEngine_of_advance hs (fun p => ?_) rfl rfl rfl
  rw [hS, withLanes_map_some hvs, hK, withLanes_map_some hks]

/-- Settles O18: K receives `windowWords`, whose addresses `windowAddr_lt` bounds by NRC. -/
theorem lrcLoadsWindow : Obligations.LrcLoadsWindow := by
  intro s seg rnd hs hseg hrnd
  refine ⟨⟨cwOf 1 seg rnd, rfl, cwOf_lrc_toNat seg rnd⟩, fun i hi => windowAddr_lt s.wf hrnd hi,
    windowWords s.cfg seg.toNat rnd.toNat, windowWords_length s.wf hrnd,
    fun i hi => windowWords_getElem? s.cfg seg.toNat rnd.toNat hi, ?_⟩
  rw [exec_lrc, execLrc_eq hs hseg hrnd, writeK]

/-- Settles O19: S receives the lane-by-lane sums. -/
theorem arcAddsConstants : Obligations.ArcAddsConstants := by
  refine ⟨rfl, fun s vs ks hs hvs hks hS hK =>
    ⟨List.zipWith (fadd s.cfg.p) vs ks, by simp [hvs, hks], fun i hi => ?_, ?_⟩⟩
  · have hi₁ : i < vs.length := hvs ▸ hi
    have hi₂ : i < ks.length := hks ▸ hi
    simp [hi₁, hi₂, fadd]
  · rw [exec_arc, execArc_eq hs hvs hks hS hK, writeS]

end Sys2Proof.Machine
end

section
/-! The frame of the six micro-operations: what one that completes leaves unchanged, read off from the state it answers
(41_round_constants.md R130, R131; 42_sbox.md R140, R141; 43_mds.md R150; 44_scheduler.md R165). -/

namespace Sys2Proof.Machine

/-- A micro-operation writes S, K and the scheduler registers at most. -/
theorem microOp_keeps_control {i : Instr} {s t : State}
    (hi : i = .nop ∨ i = .arc ∨ i = .sbf ∨ i = .sbp ∨ i = .mds ∨ ∃ seg rnd, i = .lrc seg rnd)
    (h : exec i s = .next t) :
    t.cfg = s.cfg ∧ t.fault = s.fault ∧ t.fcause = s.fcause ∧ t.agenda = s.agenda := by
  refine ⟨exec_cfg h, ?_⟩
  obtain rfl | rfl | rfl | rfl | rfl | ⟨seg, rnd, rfl⟩ := hi
  · rw [onLegal_self_next h]
    exact ⟨rfl, rfl, rfl⟩
  · obtain ⟨-, rfl⟩ | ⟨-, p, vs, ks, -, -, -, rfl⟩ := execArc_next h <;> exact ⟨rfl, rfl, rfl⟩
  · obtain ⟨-, rfl⟩ | ⟨-, p, vs, -, -, rfl⟩ := execSbf_next h <;> exact ⟨rfl, rfl, rfl⟩
  · obtain ⟨-, rfl⟩ | ⟨-, p, v, -, -, rfl⟩ := execSbp_next h <;> exact ⟨rfl, rfl, rfl⟩
  · obtain ⟨-, rfl⟩ | ⟨-, p, vs, rows, -, -, -, rfl⟩ := execMds_next h <;> exact ⟨rfl, rfl, rfl⟩
  · obtain ⟨-, rfl⟩ | ⟨-, p, ks, -, -, -, -, rfl⟩ := execLrc_next h <;> exact ⟨rfl, rfl, rfl⟩

/-- LRC writes the window registers K and no lane of S. -/
theorem execLrc_S {seg : BitVec 2} {rnd : BitVec 11} {s t : State} (h : execLrc seg rnd s = .next t) : t.S = s.S := by
  obtain ⟨-, rfl⟩ | ⟨-, p, ks, -, -, -, -, rfl⟩ := execLrc_next h <;> rfl

/-- LRC alone of the micro-operations writes K. -/
theorem microOp_keeps_K {i : Instr} {s t : State}
    (hi : i = .nop ∨ i = .arc ∨ i = .sbf ∨ i = .sbp ∨ i = .mds) (h : exec i s = .next t) : t.K = s.K := by
  obtain rfl | rfl | rfl | rfl | rfl := hi
  · rw [onLegal_self_next h]
  · obtain ⟨-, rfl⟩ | ⟨-, p, vs, ks, -, -, -, rfl⟩ := execArc_next h <;> rfl
  · obtain ⟨-, rfl⟩ | ⟨-, p, vs, -, -, rfl⟩ := execSbf_next h <;> rfl
  · obtain ⟨-, rfl⟩ | ⟨-, p, v, -, -, rfl⟩ := execSbp_next h <;> rfl
  · obtain ⟨-, rfl⟩ | ⟨-, p, vs, rows, -, -, -, rfl⟩ := execMds_next h <;> rfl

/-- SBP writes lane 0 of S alone. -/
theorem execSbp_S_getElem? {s t : State} (h : execSbp s = .next t) {k : Nat} (hk : 1 ≤ k) : t.S[k]? = s.S[k]? := by
  obtain ⟨-, rfl⟩ | ⟨-, p, v, -, -, rfl⟩ := execSbp_next h
  · rfl
  · rw [advance_S, writeLane0_S, List.getElem?_set_ne (by omega)]

/-- Settles O24, clause by clause from the frames of the single micro-operations; NOP answers the state itself. -/
theorem microOperationFrame : Obligations.MicroOperationFrame := by
  intro s t i h
  refine ⟨fun hi => microOp_keeps_control hi h, ?_, fun hi => microOp_keeps_K hi h, ?_, ?_⟩
  · rintro (rfl | ⟨seg, rnd, rfl⟩)
    · rw [onLegal_self_next h]
    · exact execLrc_S h
  · rintro rfl k hk
    exact execSbp_S_getElem? h hk
  · rintro rfl
    rw [onLegal_self_next h]
    exact ⟨rfl, rfl, rfl⟩

end Sys2Proof.Machine
end

section
/-! The S-box layer: the fixed points of POW5 (42_sbox.md R142), and SBF and SBP on an engine that has a step (R140,
R141): that they complete, and the state they leave. -/

namespace Sys2Proof.Machine

/-! ## POW5 -/

theorem sboxMap_of_pow5 {c : Config} (h : c.sbox = .pow5) (x : Nat) : sboxMap c x = fpow c.p x 5 := by
  rw [sboxMap, h]

/-- An odd power of -1 is -1, under every modulus (P = 2 included, where -1 is 1). -/
theorem fpow_sub_one_of_odd {p e : Nat} (hp : 0 < p) (he : Odd e) : fpow p (p - 1) e = p - 1 := by
  have hpow : (p - 1) ^ e ≡ p - 1 [MOD p] := by
    rw [← ZMod.natCast_eq_natCast_iff, Nat.cast_pow, Nat.cast_pred hp, ZMod.natCast_self, zero_sub, he.neg_one_pow]
  calc (p - 1) ^ e % p = (p - 1) % p := hpow
    _ = p - 1 := Nat.mod_eq_of_lt (Nat.sub_one_lt_of_lt hp)

/-- Settles O15: 0 and 1 are their own powers, and P - 1 is -1, whose exponent 5 is odd. -/
theorem sboxPow5 : Obligations.SboxPow5 := by
  intro c hc hpow5
  refine ⟨fun x _ => sboxMap_of_pow5 hpow5 x, ?_, ?_, ?_⟩ <;> rw [sboxMap_of_pow5 hpow5]
  · rw [fpow, zero_pow (by decide), Nat.zero_mod]
  · rw [fpow, one_pow, Nat.mod_eq_of_lt hc.prime.one_lt]
  · exact fpow_sub_one_of_odd hc.pos (by decide)

/-! ## SBF and SBP -/

theorem exec_sbf (s : State) : exec .sbf s = execSbf s := rfl

theorem exec_sbp (s : State) : exec .sbp s = execSbp s := rfl

@[simp] theorem fullSbox_length (c : Config) (vs : List Nat) : (fullSbox c vs).length = vs.length :=
  List.length_map _

theorem fullSbox_getElem? (c : Config) {vs : List Nat} {i : Nat} (hi : i < vs.length) :
    (fullSbox c vs)[i]? = some (sboxMap c (vs.getD i 0)) := by
  simp [fullSbox, hi]

/-- SBF completes where S holds values, and writes SF of them (44_scheduler.md R167). -/
theorem execSbf_eq {s : State} {vs : List Nat} (hs : s.EngineEnabled) (hvs : vs.length = s.cfg.w)
    (hS : s.S = vs.map some) : execSbf s = .next (writePc (writeS s (fullSbox s.cfg vs)) s.nextPos) := by
  refine onEngine_of_advance hs (fun p => ?_) rfl rfl rfl
  rw [hS, withLanes_map_some hvs, fullSbox]

/-- SBP completes where lane 0 holds a value: it reads no other lane. -/
theorem execSbp_eq {s : State} {v : Nat} (hs : s.EngineEnabled) (hv : laneOf s.S 0 = some v) :
    execSbp s = .next (writePc (writeLane0 s (sboxMap s.cfg v)) s.nextPos) := by
  refine onEngine_of_advance hs (fun p => ?_) rfl rfl rfl
  rw [hv]

/-- Settles O20: S receives `fullSbox` of its values, lane by lane. -/
theorem sbfMapsEveryLane : Obligations.SbfMapsEveryLane := by
  refine ⟨rfl, fun s vs hs hvs hS => ⟨fullSbox s.cfg vs, by rw [fullSbox_length, hvs], fun i hi => ?_, ?_⟩⟩
  · exact fullSbox_getElem? s.cfg (hvs ▸ hi)
  · rw [exec_sbf, execSbf_eq hs hvs hS, writeS]

/-- Settles O21: writing lane 0 of a file replaces its head. -/
theorem sbpMapsLaneZero : Obligations.SbpMapsLaneZero := by
  refine ⟨rfl, fun s v rest hs hS => ?_⟩
  have hv : laneOf s.S 0 = some v := by rw [hS]; rfl
  rw [exec_sbp, execSbp_eq hs hv, writeLane0, hS, List.set_cons_zero]

end Sys2Proof.Machine
end

section
/-! MDS on an engine that has a step (43_mds.md R150): the dot product of a row as a sum over the lanes, that MDS
completes, and the state it leaves. -/

namespace Sys2Proof.Machine

/-- The sum of products (40_field_arithmetic.md R115) lane by lane; a lane beyond `ss` adds 0. -/
theorem zipWith_mul_sum (ms ss : List Nat) :
    (List.zipWith (· * ·) ms ss).sum = ∑ j ∈ Finset.range ms.length, ms.getD j 0 * ss.getD j 0 := by
  induction ms generalizing ss with
  | nil => rfl
  | cons m ms ih =>
    cases ss with
    | nil => simp
    | cons s ss => simp [ih, Finset.sum_range_succ', add_comm]

theorem matrix_length {c : Config} (hw : c.WellFormed) : c.m.length = c.w := by
  obtain ⟨-, -, hm, -⟩ := (Memory.wf_iff c).1 hw.tables
  exact hm

theorem matrix_row_length {c : Config} (hw : c.WellFormed) {row : List Nat} (hrow : row ∈ c.m) : row.length = c.w := by
  obtain ⟨-, -, -, hrows⟩ := (Memory.wf_iff c).1 hw.tables
  exact (hrows row hrow).1

theorem mixLayer_length {c : Config} (hw : c.WellFormed) (vs : List Nat) : (mixLayer c vs).length = c.w := by
  rw [mixLayer, List.length_map, matrix_length hw]

/-- Lane i of MIX is row i of the matrix times the state. -/
theorem mixLayer_getElem? {c : Config} (hw : c.WellFormed) (vs : List Nat) {i : Nat} (hi : i < c.w) :
    (mixLayer c vs)[i]? =
      some ((∑ j ∈ Finset.range c.w, (c.m.getD i []).getD j 0 * vs.getD j 0) % c.p) := by
  have him : i < c.m.length := matrix_length hw ▸ hi
  rw [mixLayer, List.getElem?_map, List.getElem?_eq_getElem him, Option.map_some, fdot, zipWith_mul_sum,
    matrix_row_length hw (List.getElem_mem him), List.getD_eq_getElem _ _ him]

theorem exec_mds (s : State) : exec .mds s = execMds s := rfl

/-- MDS completes where S holds values, and writes MIX of them (44_scheduler.md R167): the ROM holds every word of the
matrix, so no access is refused. -/
theorem execMds_eq {s : State} {vs : List Nat} (hs : s.EngineEnabled) (hvs : vs.length = s.cfg.w)
    (hS : s.S = vs.map some) : execMds s = .next (writePc (writeS s (mixLayer s.cfg vs)) s.nextPos) := by
  refine onEngine_of_advance hs (fun p => ?_) rfl rfl rfl
  rw [hS, withLanes_map_some hvs, romMatrix_eq s.wf, withRom, mixLayer]

/-- Settles O22: S receives `mixLayer` of its values, lane by lane. -/
theorem mdsMultipliesByMatrix : Obligations.MdsMultipliesByMatrix := by
  refine ⟨rfl, fun s vs hs hvs hS =>
    ⟨mixLayer s.cfg vs, mixLayer_length s.wf vs, fun i hi => mixLayer_getElem? s.wf vs hi, ?_⟩⟩
  rw [exec_mds, execMds_eq hs hvs hS, writeS]

end Sys2Proof.Machine
end

section
/-! Running the ENGINE alone (44_scheduler.md R166): one step executes the scheduled micro-operation, the four steps of
a round compute F_g or Q_g of R167, and the steps of a phase its rounds in order. -/

namespace Sys2Proof.Machine

/-! ## Runs of steps -/

theorem run_succ_of_next {M : Host.Core} {s t : M.State} (h : M.step s = .next t) (n : Nat) :
    M.run (n + 1) s = M.run n t := by
  rw [Host.Core.run, h]

/-- The same for the step of this machine. -/
theorem run_succ_of_step {s t : State} (h : step s = .next t) (n : Nat) : core.run (n + 1) s = core.run n t :=
  run_succ_of_next (M := core) h n

/-- A run goes on from where its first part ends. -/
theorem run_add_of_next {M : Host.Core} {m : Nat} {s t : M.State} (h : M.run m s = .next t) (n : Nat) :
    M.run (m + n) s = M.run n t := by
  induction m generalizing s with
  | zero =>
    cases h
    rw [Nat.zero_add]
  | succ m ih =>
    rw [Host.Core.run] at h
    split at h
    · next s' hstep => rw [Nat.succ_add, run_succ_of_next hstep, ih h]
    · cases h
    · cases h

/-! ## The engine at a position -/

/-- Nothing but the ENGINE's own steps is to come, and it is not halted. -/
structure State.RunsAlone (s : State) : Prop where
  fault : s.fault = false
  cause : s.fcause ≠ 3
  agenda : s.agenda = []

/-- The engine of `s` at a position of its scheduler, with the values `vs` in S. -/
def atPc (s : State) (pc : Pc) (vs : List Nat) (K : List Reg) : State :=
  { writePc (writeS s vs) pc with K := K }

theorem started_eq_atPc (inp : List Lane) (s : State) :
    started inp s =
      atPc s ⟨phaseCode (afterPhase s.cfg .idle), 0, 0⟩ (inp.map (·.toNat)) (noLanes s.cfg.w) := rfl

@[simp] theorem atPc_S (s : State) (pc : Pc) (vs : List Nat) (K : List Reg) : (atPc s pc vs K).S = vs.map some := rfl

theorem atPc_enabled {s : State} {p : Phase} (hs : s.RunsAlone) (hp : phaseBusy p = true) (r : BitVec 11)
    (st : BitVec 2) (vs : List Nat) (K : List Reg) : (atPc s ⟨phaseCode p, r, st⟩ vs K).EngineEnabled :=
  ⟨hs.fault, hs.cause, (phaseBusy_iff p).1 hp⟩

theorem atPc_nextPos (s : State) (p : Phase) (r : BitVec 11) (st : BitVec 2) (vs : List Nat) (K : List Reg) :
    (atPc s ⟨phaseCode p, r, st⟩ vs K).nextPos = nextPc s.cfg p r st := nextPos_eq rfl

/-- The ENGINE's turn executes the word its scheduler emits (44_scheduler.md R166). -/
theorem engineTurn_of_decode {s : State} {p : Phase} {i : Instr} (hp : s.phase = phaseCode p) (hcause : s.fcause ≠ 3)
    (hfault : s.fault = false) (hdecode : decodeCw s.cfg (schedWord p s.round s.step) = .ok i) :
    engineTurn s = exec i s := by
  refine (onCommand_eq hp hcause hfault _).trans ?_
  simp only [hdecode]

/-- In a round of its phase the ENGINE executes the micro-operation SCHED names (44_scheduler.md R161, R166). -/
theorem step_atPc {s : State} {p : Phase} {r : BitVec 11} (hs : s.RunsAlone) (hr : r.toNat < phaseCount s.cfg p)
    (st : BitVec 2) (vs : List Nat) (K : List Reg) :
    step (atPc s ⟨phaseCode p, r, st⟩ vs K) = exec (sched p r st) (atPc s ⟨phaseCode p, r, st⟩ vs K) := by
  have hagenda : (atPc s ⟨phaseCode p, r, st⟩ vs K).agenda = [] := hs.agenda
  rw [step, hagenda]
  exact engineTurn_of_decode rfl hs.cause hs.fault (decodeCw_schedWord st fun _ => hr)

/-! ## The rounds of a phase -/

/-- The number of a phase's first round in the numbering of 20_memory.md R57. -/
def firstRound (c : Config) : Phase → Nat
  | .part => half c
  | .full2 => half c + c.rp
  | _ => 0

/-- The S-box layer of a phase: SP in PARTIAL, SF in the others (44_scheduler.md R167). -/
def sboxLayer (c : Config) (p : Phase) : List Nat → List Nat := if p = .part then partialSbox c else fullSbox c

/-- One round of a phase: Q_g in PARTIAL, F_g in the others (44_scheduler.md R167). -/
def phaseRound (c : Config) (p : Phase) (vs : List Nat) (g : Nat) : List Nat :=
  mixLayer c (sboxLayer c p (arcRound c g vs))

/-- The first `n` rounds of a phase, in order. -/
def phaseRounds (c : Config) (p : Phase) (n : Nat) (vs : List Nat) : List Nat :=
  (List.range' (firstRound c p) n).foldl (phaseRound c p) vs

theorem phaseRounds_succ (c : Config) (p : Phase) (n : Nat) (vs : List Nat) :
    phaseRounds c p (n + 1) vs = phaseRound c p (phaseRounds c p n vs) (firstRound c p + n) := by
  simp [phaseRounds, List.range'_concat]

theorem afterFull1_eq_phaseRounds (c : Config) (vs : List Nat) :
    afterFull1 c vs = phaseRounds c .full1 (phaseCount c .full1) vs := by
  rw [afterFull1, List.range_eq_range']
  rfl

theorem afterPartial_eq_phaseRounds (c : Config) (vs : List Nat) :
    afterPartial c vs = phaseRounds c .part (phaseCount c .part) (afterFull1 c vs) := rfl

/-- The window of a phase's round r holds the constants of the round of that global number (20_memory.md R57). -/
theorem windowWords_phase (c : Config) {p : Phase} (hp : phaseBusy p = true) (r : Nat) :
    windowWords c (phaseCode p).toNat r = (c.rc.drop ((firstRound c p + r) * c.w)).take c.w := by
  have haddr : segBase c (phaseCode p).toNat + r * c.w = (firstRound c p + r) * c.w := by
    cases p with
    | full1 => simp [segBase, phaseCode, firstRound]
    | part => simp [segBase, phaseCode, firstRound, Nat.add_mul]
    | full2 => simp [segBase, phaseCode, firstRound, Nat.add_mul]
    | idle => cases hp
    | done => cases hp
  rw [windowWords, haddr]

theorem sboxLayer_length (c : Config) (p : Phase) (vs : List Nat) : (sboxLayer c p vs).length = vs.length := by
  rw [sboxLayer]
  split
  · cases vs <;> rfl
  · exact fullSbox_length c vs

theorem phaseRounds_length {c : Config} (hc : c.WellFormed) (p : Phase) (n : Nat) {vs : List Nat}
    (hvs : vs.length = c.w) : (phaseRounds c p n vs).length = c.w := by
  cases n with
  | zero => exact hvs
  | succ n =>
    rw [phaseRounds_succ]
    exact mixLayer_length hc _

/-! ## The four steps of a round -/

section Round

variable {s : State} {p : Phase} {r : BitVec 11} {vs : List Nat} (hs : s.RunsAlone) (hp : phaseBusy p = true)
  (hr : r.toNat < phaseCount s.cfg p) (hvs : vs.length = s.cfg.w)

include hs hp hr

theorem step_load (K : List Reg) : step (atPc s ⟨phaseCode p, r, 0⟩ vs K) =
    .next (atPc s ⟨phaseCode p, r, 1⟩ vs ((windowWords s.cfg (phaseCode p).toNat r.toNat).map some)) := by
  have hseg : (phaseCode p).setWidth 2 ≠ 0#2 ∧ ((phaseCode p).setWidth 2).toNat = (phaseCode p).toNat := by
    revert hp
    cases p <;> decide
  obtain ⟨hseg0, hsegNat⟩ := hseg
  rw [step_atPc hs hr, sched_load hp, exec_lrc,
    execLrc_eq (atPc_enabled hs hp _ _ _ _) hseg0 (by rw [hsegNat]; exact hr), atPc_nextPos,
    nextPc_within (by decide), hsegNat]
  rfl

include hvs

theorem step_addConstants : step (atPc s ⟨phaseCode p, r, 1⟩ vs
      ((windowWords s.cfg (phaseCode p).toNat r.toNat).map some)) =
    .next (atPc s ⟨phaseCode p, r, 2⟩ (arcRound s.cfg (firstRound s.cfg p + r.toNat) vs)
      ((windowWords s.cfg (phaseCode p).toNat r.toNat).map some)) := by
  rw [step_atPc hs hr, sched_add hp, exec_arc,
    execArc_eq (atPc_enabled hs hp _ _ _ _) hvs (windowWords_length s.wf hr) rfl rfl, atPc_nextPos,
    nextPc_within (by decide), windowWords_phase s.cfg hp]
  rfl

theorem step_sbox (K : List Reg) : step (atPc s ⟨phaseCode p, r, 2⟩ vs K) =
    .next (atPc s ⟨phaseCode p, r, 3⟩ (sboxLayer s.cfg p vs) K) := by
  have henabled := atPc_enabled hs hp r 2 vs K
  rw [step_atPc hs hr, sched_sbox hp, sboxLayer]
  split
  · obtain ⟨v, rest, rfl⟩ : ∃ v rest, vs = v :: rest :=
      List.exists_cons_of_length_pos (hvs ▸ s.wf.width)
    rw [exec_sbp, execSbp_eq (v := v) henabled rfl, atPc_nextPos, nextPc_within (by decide)]
    rfl
  · rw [exec_sbf, execSbf_eq henabled hvs rfl, atPc_nextPos, nextPc_within (by decide)]
    rfl

theorem step_mix (K : List Reg) : step (atPc s ⟨phaseCode p, r, 3⟩ vs K) =
    .next (atPc s (nextPc s.cfg p r 3) (mixLayer s.cfg vs) K) := by
  rw [step_atPc hs hr, sched_mix hp, exec_mds, execMds_eq (atPc_enabled hs hp _ _ _ _) hvs rfl, atPc_nextPos]
  rfl

/-- Four steps compute one round of the functional form (44_scheduler.md R167). -/
theorem run_round (K : List Reg) : ∃ K', core.run 4 (atPc s ⟨phaseCode p, r, 0⟩ vs K) =
    .next (atPc s (nextPc s.cfg p r 3) (phaseRound s.cfg p vs (firstRound s.cfg p + r.toNat)) K') := by
  have harc : (arcRound s.cfg (firstRound s.cfg p + r.toNat) vs).length = s.cfg.w := by
    rw [arcRound, ← windowWords_phase s.cfg hp, List.length_zipWith, hvs, windowWords_length s.wf hr, Nat.min_self]
  refine ⟨(windowWords s.cfg (phaseCode p).toNat r.toNat).map some, ?_⟩
  rw [run_succ_of_step (step_load hs hp hr K), run_succ_of_step (step_addConstants hs hp hr hvs),
    run_succ_of_step (step_sbox hs hp hr harc _),
    run_succ_of_step (step_mix hs hp hr ((sboxLayer_length s.cfg p _).trans harc) _)]
  rfl

end Round

/-! ## The steps of a phase -/

/-- ROUND is wide enough for every phase (00_scope.md R4(f)). -/
theorem phaseCount_le {c : Config} (hc : c.WellFormed) (p : Phase) : phaseCount c p ≤ 2 ^ 11 := by
  cases p with
  | full1 => exact hc.halfFits
  | part => exact hc.partialFits
  | full2 => exact hc.halfFits
  | idle => exact Nat.zero_le _
  | done => exact Nat.zero_le _

theorem toNat_round {c : Config} (hc : c.WellFormed) {p : Phase} {n : Nat} (hn : n < phaseCount c p) :
    (BitVec.ofNat 11 n).toNat = n := by
  have hcount := phaseCount_le hc p
  rw [BitVec.toNat_ofNat, Nat.mod_eq_of_lt (by omega)]

/-- The phase whose AFTER is the given one when that has a round. -/
def phaseBefore : Phase → Phase
  | .part => .full1
  | .full2 => .part
  | _ => .idle

/-- AFTER enters a phase that has a round. -/
theorem afterPhase_phaseBefore {c : Config} {p : Phase} (hp : phaseBusy p = true) (h : 0 < phaseCount c p) :
    afterPhase c (phaseBefore p) = p := by
  rw [afterPhase_eq]
  cases p with
  | full1 => exact if_pos h
  | part => exact if_pos h
  | full2 => exact if_pos h
  | idle => cases hp
  | done => cases hp

/-- AFTER skips a phase without rounds. -/
theorem afterPhase_phaseBefore_of_empty {c : Config} {p : Phase} (hp : phaseBusy p = true)
    (h : phaseCount c p = 0) : afterPhase c (phaseBefore p) = afterPhase c p := by
  have hskip : ¬ 0 < phaseCount c p := by omega
  rw [afterPhase_eq, afterPhase_eq]
  cases p with
  | full1 =>
    have hhalf : ¬ 0 < half c := hskip
    simp [phaseBefore, hhalf]
  | part => exact if_neg hskip
  | full2 => exact if_neg hskip
  | idle => cases hp
  | done => cases hp

/-- After the first n rounds of a phase, four more steps compute round n and apply NEXT. -/
theorem run_rounds_succ {s u : State} {p : Phase} {vs : List Nat} {K : List Reg} {n : Nat} (hs : s.RunsAlone)
    (hp : phaseBusy p = true) (hvs : vs.length = s.cfg.w) (hn : n < phaseCount s.cfg p)
    (hrun : core.run (4 * n) u =
      .next (atPc s ⟨phaseCode p, BitVec.ofNat 11 n, 0⟩ (phaseRounds s.cfg p n vs) K)) :
    ∃ K', core.run (4 * (n + 1)) u =
      .next (atPc s (nextPc s.cfg p (BitVec.ofNat 11 n) 3) (phaseRounds s.cfg p (n + 1) vs) K') := by
  have hround : (BitVec.ofNat 11 n).toNat = n := toNat_round s.wf hn
  obtain ⟨K', hlast⟩ := run_round hs hp (hround.symm ▸ hn) (phaseRounds_length s.wf p n hvs) K
  refine ⟨K', ?_⟩
  rw [Nat.mul_succ, run_add_of_next hrun, hlast, hround, phaseRounds_succ]

/-- A round of a phase begins after the rounds before it. -/
theorem run_rounds {s : State} {p : Phase} {vs : List Nat} (hs : s.RunsAlone) (hp : phaseBusy p = true)
    (hvs : vs.length = s.cfg.w) (K : List Reg) {n : Nat} (hn : n < phaseCount s.cfg p) :
    ∃ K', core.run (4 * n) (atPc s ⟨phaseCode p, 0, 0⟩ vs K) =
      .next (atPc s ⟨phaseCode p, BitVec.ofNat 11 n, 0⟩ (phaseRounds s.cfg p n vs) K') := by
  induction n with
  | zero => exact ⟨K, rfl⟩
  | succ n ih =>
    have hn' : n < phaseCount s.cfg p := by omega
    have hnext : nextPc s.cfg p (BitVec.ofNat 11 n) 3 = ⟨phaseCode p, BitVec.ofNat 11 (n + 1), 0⟩ := by
      rw [nextPc_round (by decide) (by rwa [toNat_round s.wf hn']), BitVec.ofNat_add]
      rfl
    obtain ⟨K₁, hrun⟩ := ih hn'
    exact hnext ▸ run_rounds_succ hs hp hvs hn' hrun

/-- The steps of a phase, from AFTER of the phase before it to its own, compute its rounds; a phase without rounds
takes no step. -/
theorem run_phase {s : State} {p : Phase} {vs : List Nat} (hs : s.RunsAlone) (hp : phaseBusy p = true)
    (hvs : vs.length = s.cfg.w) (K : List Reg) :
    ∃ K', core.run (4 * phaseCount s.cfg p) (atPc s ⟨phaseCode (afterPhase s.cfg (phaseBefore p)), 0, 0⟩ vs K) =
      .next (atPc s ⟨phaseCode (afterPhase s.cfg p), 0, 0⟩ (phaseRounds s.cfg p (phaseCount s.cfg p) vs) K') := by
  cases hcount : phaseCount s.cfg p with
  | zero =>
    rw [afterPhase_phaseBefore_of_empty hp hcount]
    exact ⟨K, rfl⟩
  | succ n =>
    have hn : n < phaseCount s.cfg p := by omega
    have hnext : nextPc s.cfg p (BitVec.ofNat 11 n) 3 = ⟨phaseCode (afterPhase s.cfg p), 0, 0⟩ :=
      nextPc_phase (by decide) (by rw [toNat_round s.wf hn]; omega)
    obtain ⟨K₁, hrun⟩ := run_rounds hs hp hvs K hn
    rw [afterPhase_phaseBefore hp (by omega)]
    exact hnext ▸ run_rounds_succ hs hp hvs hn hrun

/-! ## The phase boundaries of an invocation -/

theorem State.Ready.runsAlone {s : State} (hs : s.Ready) (hagenda : s.agenda = []) : s.RunsAlone := by
  obtain ⟨hfault, hcause, -⟩ := hs
  exact ⟨hfault, hcause, hagenda⟩

/-- The engine at the end of the first full-round phase (44_scheduler.md R160 step 3). -/
theorem run_started_full1 {s : State} {inp : List Lane} (hs : s.RunsAlone) (hin : inp.length = s.cfg.w) :
    ∃ K, core.run (4 * half s.cfg) (started inp s) =
      .next (atPc s ⟨phaseCode (afterPhase s.cfg .full1), 0, 0⟩ (afterFull1 s.cfg (inp.map (·.toNat))) K) := by
  rw [afterFull1_eq_phaseRounds, started_eq_atPc]
  exact run_phase (p := .full1) hs rfl ((List.length_map _).trans hin) _

/-- The engine at the end of the partial-round phase (44_scheduler.md R160 step 4). -/
theorem run_started_partial {s : State} {inp : List Lane} (hs : s.RunsAlone) (hin : inp.length = s.cfg.w) :
    ∃ K, core.run (4 * (half s.cfg + s.cfg.rp)) (started inp s) =
      .next (atPc s ⟨phaseCode (afterPhase s.cfg .part), 0, 0⟩ (afterPartial s.cfg (inp.map (·.toNat))) K) := by
  obtain ⟨K₁, hfull⟩ := run_started_full1 hs hin
  have hlength : (afterFull1 s.cfg (inp.map (·.toNat))).length = s.cfg.w := by
    rw [afterFull1_eq_phaseRounds]
    exact phaseRounds_length s.wf .full1 _ ((List.length_map _).trans hin)
  rw [afterPartial_eq_phaseRounds, Nat.mul_add, run_add_of_next hfull]
  exact run_phase (p := .part) hs rfl hlength K₁

/-- Settles O54: START leaves `started`, and the runs from there to the two boundaries are known whole. -/
theorem phaseBoundaryStates : Obligations.PhaseBoundaryStates := by
  intro s inp hs hagenda hin
  have halone := hs.runsAlone hagenda
  obtain ⟨K₁, hfull⟩ := run_started_full1 halone hin.1
  obtain ⟨K₂, hpartial⟩ := run_started_partial halone hin.1
  exact ⟨started inp s, exec_start_of_ready hs hin, ⟨_, hfull, atPc_S _ _ _ _⟩, _, hpartial, atPc_S _ _ _ _⟩

end Sys2Proof.Machine
end

section
/-! The agenda is the model's own (log entry 5): no instruction and no ENGINE turn reads or writes it. So what is proved
of an engine that runs alone holds of one with any turns to come. -/

namespace Sys2Proof.Machine

/-- An answer with the agenda of its next state replaced. -/
def withAgenda (a : List Turn) (r : Out) : Out := andThen r fun t => .next (writeAgenda t a)

theorem withAgenda_eq_next {a : List Turn} {r : Out} {t : State} (h : withAgenda a r = .next t) :
    ∃ u, r = .next u ∧ t = writeAgenda u a := by
  cases r with
  | next u =>
    cases h
    exact ⟨u, rfl, rfl⟩
  | fault e => cases h
  | refused e => cases h

section Agenda

variable {s : State} {a : List Turn}

theorem onLegal_writeAgenda {k k' : Phase → Out} (h : ∀ p, k' p = withAgenda a (k p)) :
    onLegal (writeAgenda s a) k' = withAgenda a (onLegal s k) := by
  rw [onLegal, onLegal, writeAgenda_phase, writeAgenda_fcause]
  split
  · rfl
  · split
    · rfl
    · exact h _

theorem onCommand_writeAgenda {k k' : Phase → Out} (h : ∀ p, k' p = withAgenda a (k p)) :
    onCommand (writeAgenda s a) k' = withAgenda a (onCommand s k) := by
  refine onLegal_writeAgenda fun p => ?_
  rw [writeAgenda_fault]
  split
  · rfl
  · exact h p

theorem onEngine_writeAgenda {k k' : Phase → Out} (h : ∀ p, k' p = withAgenda a (k p)) :
    onEngine (writeAgenda s a) k' = withAgenda a (onEngine s k) := by
  refine onLegal_writeAgenda fun p => ?_
  rw [writeAgenda_fault]
  split
  · rfl
  · split
    · exact h p
    · rfl

theorem withLanes_writeAgenda {regs : List Reg} {k k' : List Nat → Out} (h : ∀ vs, k' vs = withAgenda a (k vs)) :
    withLanes (writeAgenda s a) regs k' = withAgenda a (withLanes s regs k) := by
  rw [withLanes, withLanes, writeAgenda_cfg]
  split
  · exact h _
  · rfl

theorem withRom_withAgenda {α : Type} {words : Option α} {k k' : α → Out} (h : ∀ v, k' v = withAgenda a (k v)) :
    withRom words k' = withAgenda a (withRom words k) := by
  cases words with
  | some v => exact h v
  | none => rfl

theorem raiseFault_writeAgenda (cause : BitVec 2) :
    raiseFault cause (writeAgenda s a) = writeAgenda (raiseFault cause s) a := by
  rw [raiseFault, raiseFault, writeAgenda_fault]
  split <;> rfl

end Agenda

/-- An instruction does the same whatever turns are to come, and leaves them as they are. -/
theorem exec_writeAgenda (i : Instr) (s : State) (a : List Turn) :
    exec i (writeAgenda s a) = withAgenda a (exec i s) := by
  cases i with
  | nop => exact onLegal_writeAgenda fun _ => rfl
  | lrc seg rnd =>
    refine onEngine_writeAgenda fun p => ?_
    rw [writeAgenda_cfg]
    split
    · rfl
    · split
      · exact withRom_withAgenda fun _ => rfl
      · rfl
  | arc => exact onEngine_writeAgenda fun p => withLanes_writeAgenda fun vs => withLanes_writeAgenda fun ks => rfl
  | sbf => exact onEngine_writeAgenda fun p => withLanes_writeAgenda fun vs => rfl
  | sbp =>
    refine onEngine_writeAgenda fun p => ?_
    rw [writeAgenda_S]
    split <;> rfl
  | mds => exact onEngine_writeAgenda fun p => withLanes_writeAgenda fun vs => withRom_withAgenda fun rows => rfl
  | noCommand => exact onLegal_writeAgenda fun _ => rfl
  | start inp =>
    refine onCommand_writeAgenda fun p => ?_
    rw [raiseFault_writeAgenda, raiseFault_writeAgenda, writeAgenda_cfg]
    split
    · rfl
    · split
      · rfl
      · split <;> rfl
  | ack =>
    refine onCommand_writeAgenda fun p => ?_
    rw [raiseFault_writeAgenda]
    split <;> rfl

/-- So does the ENGINE's turn: the word it executes depends on the scheduler registers alone. -/
theorem engineTurn_writeAgenda (s : State) (a : List Turn) :
    engineTurn (writeAgenda s a) = withAgenda a (engineTurn s) := by
  refine onCommand_writeAgenda fun p => ?_
  rw [writeAgenda_cfg, writeAgenda_round, writeAgenda_step]
  split
  · exact exec_writeAgenda _ s a
  · rfl

theorem engineTurn_agenda {s t : State} (h : engineTurn s = .next t) : t.agenda = s.agenda := by
  have hsame : engineTurn s = withAgenda s.agenda (engineTurn s) := engineTurn_writeAgenda s s.agenda
  obtain ⟨u, -, rfl⟩ := withAgenda_eq_next (hsame.symm.trans h)
  rfl

end Sys2Proof.Machine
end

section
/-! Waiting for DONE (45_host_wrapper.md R191): it ends where the run of the ENGINE's steps of one invocation ends, in
DONE with `permute` of the operand in S (44_scheduler.md R167, R176). -/

namespace Sys2Proof.Machine

/-! ## Waiting and running -/

/-- In DONE the scheduler emits NOP (44_scheduler.md R161, R165), so the ENGINE's turn changes nothing. -/
theorem engineTurn_of_done {s t : State} (hdone : doneFlag s = true) (h : engineTurn s = .next t) : t = s := by
  obtain ⟨-, rfl⟩ | ⟨-, p, i, hp, hi, hexec⟩ := engineTurn_next h
  · rfl
  · have hphase : s.phase = phaseCode .done := eq_of_beq hdone
    obtain rfl : p = .done :=
      Option.some.inj ((phaseOf_eq_some_iff.2 hp).symm.trans (phaseOf_eq_some_iff.2 hphase))
    rw [decodeCw_schedWord _ fun h => absurd h (by decide), sched_waiting rfl] at hi
    cases hi
    exact onLegal_self_next hexec

/-- A run that completes has completed its first step. -/
theorem run_succ_next {M : Host.Core} {n : Nat} {s t : M.State} (h : M.run (n + 1) s = .next t) :
    ∃ u, M.step s = .next u ∧ M.run n u = .next t := by
  rw [Host.Core.run] at h
  split at h
  · next u hu => exact ⟨u, hu, h⟩
  · cases h
  · cases h

theorem waitDone_of_done {s : State} (hdone : doneFlag s = true) (n : Nat) : waitDone n s = .next s := by
  cases n <;> exact if_pos hdone

/-- Waiting reaches the DONE state that the engine, running alone, is in after as many steps as waiting allows. A DONE
state met earlier is the same one. -/
theorem waitDone_of_run {n : Nat} {s t : State} (hdone : doneFlag t = true)
    (h : core.run n (writeAgenda s []) = .next t) : waitDone n s = .next (writeAgenda t s.agenda) := by
  induction n generalizing s with
  | zero =>
    cases h
    exact waitDone_of_done (s := s) hdone 0
  | succ n ih =>
    obtain ⟨u, hstep, hrest⟩ := run_succ_next (M := core) h
    obtain ⟨s', hturn, rfl⟩ := withAgenda_eq_next ((engineTurn_writeAgenda s []).symm.trans hstep)
    have hwait := ih hrest
    rw [engineTurn_agenda hturn] at hwait
    by_cases hearly : doneFlag s = true
    · obtain rfl := engineTurn_of_done hearly hturn
      rw [← hwait, waitDone_of_done hearly, waitDone_of_done hearly]
    · rw [waitDone, if_neg hearly, hturn]
      exact hwait

/-! ## The invocation up to DONE -/

/-- `permute` ends with the rounds of FULL2. -/
theorem permute_eq_phaseRounds (c : Config) (vs : List Nat) :
    permute c vs = phaseRounds c .full2 (phaseCount c .full2) (afterPartial c vs) := rfl

theorem permute_length {c : Config} (hc : c.WellFormed) {vs : List Nat} (hvs : vs.length = c.w) :
    (permute c vs).length = c.w := by
  rw [permute_eq_phaseRounds, afterPartial_eq_phaseRounds, afterFull1_eq_phaseRounds]
  exact phaseRounds_length hc .full2 _ (phaseRounds_length hc .part _ (phaseRounds_length hc .full1 _ hvs))

/-- Every lane after a phase is a field element: a round ends in MIX, which reduces mod P. -/
theorem phaseRounds_lt {c : Config} (hc : c.WellFormed) (p : Phase) (n : Nat) {vs : List Nat}
    (hvs : ∀ x ∈ vs, x < c.p) : ∀ x ∈ phaseRounds c p n vs, x < c.p := by
  cases n with
  | zero => exact hvs
  | succ n =>
    rw [phaseRounds_succ, phaseRound, mixLayer]
    intro x hx
    obtain ⟨row, -, rfl⟩ := List.mem_map.1 hx
    exact Nat.mod_lt _ hc.pos

theorem permute_lt {c : Config} (hc : c.WellFormed) {vs : List Nat} (hvs : ∀ x ∈ vs, x < c.p) :
    ∀ x ∈ permute c vs, x < c.p := by
  rw [permute_eq_phaseRounds, afterPartial_eq_phaseRounds, afterFull1_eq_phaseRounds]
  exact phaseRounds_lt hc .full2 _ (phaseRounds_lt hc .part _ (phaseRounds_lt hc .full1 _ hvs))

/-- AFTER(FULL2) is DONE, so the third phase boundary is the end of the invocation (44_scheduler.md R160 step 5). -/
theorem run_started_done {s : State} {inp : List Lane} (hs : s.RunsAlone) (hin : inp.length = s.cfg.w) :
    ∃ K, core.run (stepsPerInvocation s.cfg) (started inp s) =
      .next (atPc s ⟨phaseCode .done, 0, 0⟩ (permute s.cfg (inp.map (·.toNat))) K) := by
  obtain ⟨K₂, hpartial⟩ := run_started_partial hs hin
  have hlength : (afterPartial s.cfg (inp.map (·.toNat))).length = s.cfg.w := by
    rw [afterPartial_eq_phaseRounds, afterFull1_eq_phaseRounds]
    exact phaseRounds_length s.wf .part _ (phaseRounds_length s.wf .full1 _ ((List.length_map _).trans hin))
  have hsteps : stepsPerInvocation s.cfg = 4 * (half s.cfg + s.cfg.rp) + 4 * phaseCount s.cfg .full2 := by
    have heven := s.wf.even
    have hcount : phaseCount s.cfg .full2 = s.cfg.rf / 2 := rfl
    rw [stepsPerInvocation, hcount, half]
    omega
  rw [hsteps, run_add_of_next hpartial, permute_eq_phaseRounds]
  exact run_phase (p := .full2) hs rfl hlength K₂

/-- After START the engine of any agenda waits through to DONE, with `permute` of the operand in S. -/
theorem waitDone_started {s : State} {inp : List Lane} (hs : s.Ready) (hin : inp.length = s.cfg.w) :
    ∃ K, waitDone (stepsPerInvocation s.cfg) (started inp s) =
      .next (atPc s ⟨phaseCode .done, 0, 0⟩ (permute s.cfg (inp.map (·.toNat))) K) := by
  have halone : (writeAgenda s []).RunsAlone := State.Ready.runsAlone (s := writeAgenda s []) hs rfl
  obtain ⟨K, hrun⟩ := run_started_done halone hin
  exact ⟨K, waitDone_of_run (s := started inp s) rfl hrun⟩

end Sys2Proof.Machine
end

section
/-! The wrapper transaction RUN (45_host_wrapper.md R191) on a ready engine: the checks, START, waiting, the read of OUT
and ACK, each said once, and the reply of the whole. -/

namespace Sys2Proof.Machine

/-! ## The parts of RUN -/

theorem readyFlag_of_ready {s : State} (hs : s.Ready) : readyFlag s = true := by
  obtain ⟨hfault, -, hphase⟩ := hs
  simpa [readyFlag, hfault] using hphase

/-- An input that passes the three checks of R199 is decoded to an element below P, as itself or under Reduce by its
residue. -/
theorem checkInput_eq_ok {c : Config} {input : List Byte} {budget : BitVec 64} {v : Nat} (hlen : input.length = 32)
    (hbudget : c.w * 10 ≤ budget.toNat)
    (hv : (unbe32 input < c.p ∧ v = unbe32 input) ∨
      (c.p ≤ unbe32 input ∧ c.noncanon = .reduce ∧ v = unbe32 input % c.p)) : checkInput c input budget = .ok v := by
  have hbytes : input.length = Config.feBytes := hlen
  have henough : ¬ budget.toNat < runCost c := Nat.not_lt.2 hbudget
  rw [checkInput, if_neg (not_not.2 hbytes), if_neg henough, decodeInput]
  obtain ⟨hlt, rfl⟩ | ⟨hle, hreduce, rfl⟩ := hv
  · exact if_pos hlt
  · rw [if_neg (Nat.not_lt.2 hle), hreduce]

/-- OUT[0] in DONE is lane 0 of S (10_state.md R33). -/
theorem readOut0_of_done {s : State} {y : Nat} {rest : List Nat} (hdone : doneFlag s = true) (hfault : s.fault = false)
    (hlen : (y :: rest).length = s.cfg.w) (hS : s.S = (y :: rest).map some) :
    readOut0 s = .next (BitVec.ofNat 256 y) := by
  rw [readOut0, readOut, hdone, hfault, hS, readLanes_map_some hlen]
  rfl

/-- ACK in DONE drops the values and returns to IDLE (44_scheduler.md R171). -/
theorem exec_ack_of_done {s : State} (hphase : s.phase = phaseCode .done) (hcause : s.fcause ≠ 3)
    (hfault : s.fault = false) : exec .ack s = .next (writePc (dropAll s) ⟨phaseCode .idle, 0, 0⟩) :=
  (onCommand_eq hphase hcause hfault _).trans (if_pos rfl)

/-- A field element fits a lane of the ports (00_scope.md R4(a)). -/
theorem toNat_lane {c : Config} (hc : c.WellFormed) {x : Nat} (hx : x < c.p) : (BitVec.ofNat 256 x).toNat = x := by
  have hfits : x < 2 ^ 256 := hx.trans hc.below
  rw [BitVec.toNat_ofNat, Nat.mod_eq_of_lt hfits]

/-- START accepts W copies of a field element (45_host_wrapper.md R195). -/
theorem acceptedInput_replicate {c : Config} (hc : c.WellFormed) {v : Nat} (hv : v < c.p) :
    AcceptedInput c (List.replicate c.w (BitVec.ofNat 256 v)) := by
  refine ⟨List.length_replicate, fun lane hlane => ?_⟩
  rw [List.eq_of_mem_replicate hlane, toNat_lane hc hv]
  exact hv

/-! ## The whole of RUN -/

/-- RUN on a ready engine whose decoded element is below P: START, the wait, the read of OUT and ACK all complete. -/
theorem runUnit_of_checked {s : State} {input : List Byte} {budget : BitVec 64} {v y : Nat} {rest : List Nat}
    (hs : s.Ready) (hcheck : checkInput s.cfg input budget = .ok v) (hv : v < s.cfg.p)
    (hpermute : permute s.cfg (List.replicate s.cfg.w v) = y :: rest) (hy : y < s.cfg.p) :
    runUnit input budget s =
      .next (.ok (runCost s.cfg) (be32 y), writePc (dropAll s) ⟨phaseCode .idle, 0, 0⟩) := by
  have ⟨hfault, hcause, _⟩ := hs
  have hin := acceptedInput_replicate s.wf hv
  have hlen : (y :: rest).length = s.cfg.w := hpermute ▸ permute_length s.wf List.length_replicate
  obtain ⟨K, hwait⟩ := waitDone_started hs hin.1
  rw [List.map_replicate, toNat_lane s.wf hv, hpermute] at hwait
  have hout : readOut0 (atPc s ⟨phaseCode .done, 0, 0⟩ (y :: rest) K) = .next (BitVec.ofNat 256 y) :=
    readOut0_of_done rfl hfault hlen rfl
  have hack : exec .ack (atPc s ⟨phaseCode .done, 0, 0⟩ (y :: rest) K) =
      .next (writePc (dropAll s) ⟨phaseCode .idle, 0, 0⟩) := exec_ack_of_done rfl hcause hfault
  simp only [runUnit, hcheck, readyFlag_of_ready hs, if_true, andThen, exec_start_of_ready hs hin, hwait, hout, hack,
    toNat_lane s.wf hy]

/-- Settles O59: the checks decode an element below P, and lane 0 of `permute` of its copies is the y of the reply. -/
theorem runSucceeds : Obligations.RunSucceeds := by
  intro s input budget v hs hlen hbudget hv
  have hcanonical : v < s.cfg.p := by
    obtain ⟨hlt, rfl⟩ | ⟨-, -, rfl⟩ := hv
    · exact hlt
    · exact Nat.mod_lt _ s.wf.pos
  have hlanes : ∀ x ∈ List.replicate s.cfg.w v, x < s.cfg.p := fun x hx => List.eq_of_mem_replicate hx ▸ hcanonical
  have hwidth : 0 < (permute s.cfg (List.replicate s.cfg.w v)).length := by
    rw [permute_length s.wf List.length_replicate]
    exact s.wf.width
  obtain ⟨y, rest, hpermute⟩ := List.exists_cons_of_length_pos hwidth
  have hy : y < s.cfg.p := permute_lt s.wf hlanes y (hpermute ▸ List.mem_cons_self)
  refine ⟨y, by rw [hpermute]; rfl, hy, ?_⟩
  exact runUnit_of_checked hs (checkInput_eq_ok hlen hbudget hv) hcanonical hpermute hy

end Sys2Proof.Machine
end

section
/-! No step stops in a state that meets the invariant (10_state.md R35; 60_exceptions.md R217): each meaning completes
where the codes are legal and the registers it reads hold values, and the invariant provides both. -/

namespace Sys2Proof.Machine

/-! ## What the invariant provides -/

theorem State.Inv.codesLegal {s : State} (hs : s.Inv) : s.CodesLegal := ⟨hs.phaseLegal, hs.causeLegal⟩

/-- The invariant says nothing of the turns to come. -/
theorem State.Inv.writeAgenda {s : State} (hs : s.Inv) (a : List Turn) : (writeAgenda s a).Inv where
  lanesS := hs.lanesS
  lanesK := hs.lanesK
  cause := hs.cause
  causeLegal := hs.causeLegal
  valuesS := hs.valuesS
  window := hs.window
  atRest := hs.atRest
  idleEmpty := hs.idleEmpty
  inRange := hs.inRange
  phaseLegal := hs.phaseLegal

/-- A register file without ⊥ is a list of values. -/
theorem exists_eq_map_some {w : Nat} {regs : List Reg} (hlen : regs.length = w) (h : ∀ r ∈ regs, ∃ v, r = some v) :
    ∃ vs : List Nat, vs.length = w ∧ regs = vs.map some := by
  have hrange : regs ∈ Set.range (List.map (some : Nat → Reg)) := by
    rw [Set.range_list_map]
    exact fun r hr => (h r hr).imp fun _ => Eq.symm
  obtain ⟨vs, rfl⟩ := hrange
  exact ⟨vs, (List.length_map _).symm.trans hlen, rfl⟩

/-- Inside an invocation S holds values (10_state.md R35(a)). -/
theorem State.Inv.exists_valuesS {s : State} (hs : s.Inv) (hphase : 1 ≤ s.phase.toNat) :
    ∃ vs : List Nat, vs.length = s.cfg.w ∧ s.S = vs.map some :=
  exists_eq_map_some hs.lanesS fun r hr => (hs.valuesS hphase r hr).imp fun _ => And.left

/-- After the first step of a round K holds values (10_state.md R35(b)). -/
theorem State.Inv.exists_valuesK {s : State} (hs : s.Inv) (hbusy : s.phase = 1 ∨ s.phase = 2 ∨ s.phase = 3)
    (hstep : s.step ≠ 0) : ∃ ks : List Nat, ks.length = s.cfg.w ∧ s.K = ks.map some := by
  refine exists_eq_map_some hs.lanesK fun r hr => ?_
  obtain ⟨i, hi, rfl⟩ := List.getElem_of_mem hr
  obtain ⟨v, hv, -, -⟩ := hs.window hbusy hstep i (hs.lanesK ▸ hi)
  exact ⟨v, (List.getElem_eq_iff hi).2 hv⟩

/-- In a busy phase ROUND is one of its rounds (10_state.md R35(e)). -/
theorem State.Inv.round_lt {s : State} {p : Phase} (hs : s.Inv) (hp : s.phase = phaseCode p)
    (hbusy : phaseBusy p = true) : s.round.toNat < phaseCount s.cfg p := by
  have hround := hs.inRange (hp ▸ (phaseBusy_iff p).1 hbusy)
  rwa [hp] at hround

/-! ## Who may step -/

theorem onLegal_completes {s : State} {k : Phase → Out} (hs : s.CodesLegal)
    (hk : ∀ p, s.phase = phaseCode p → ∃ t, k p = .next t) : ∃ t, onLegal s k = .next t := by
  obtain ⟨hphase, hcause⟩ := hs
  obtain ⟨p, hp⟩ := phaseOf_of_le hphase
  have hcode := phaseOf_eq_some_iff.1 hp
  rw [onLegal_eq hcode hcause]
  exact hk p hcode

theorem onCommand_completes {s : State} {k : Phase → Out} (hs : s.CodesLegal)
    (hk : ∀ p, s.phase = phaseCode p → s.fault = false → ∃ t, k p = .next t) : ∃ t, onCommand s k = .next t := by
  refine onLegal_completes hs fun p hp => ?_
  split
  · exact ⟨s, rfl⟩
  · next hfault => exact hk p hp (Bool.eq_false_iff.2 hfault)

/-! ## The ENGINE's turn -/

/-- The SEG field of a busy phase's LRC names the segment of the phase (44_scheduler.md R161). -/
theorem lrcSegment_of_busy {p : Phase} (hbusy : phaseBusy p = true) :
    (phaseCode p).setWidth 2 ≠ 0#2 ∧ ((phaseCode p).setWidth 2).toNat = (phaseCode p).toNat := by
  revert hbusy
  cases p <;> decide

/-- The scheduled micro-operation completes: LRC's window lies in its segment, and the others read registers that hold
values (10_state.md R35). -/
theorem exec_sched_completes {s : State} {p : Phase} (hs : s.Inv) (hp : s.phase = phaseCode p)
    (hfault : s.fault = false) : ∃ t, exec (sched p s.round s.step) s = .next t := by
  cases hbusy : phaseBusy p with
  | false =>
    rw [sched_waiting hbusy]
    exact onLegal_completes hs.codesLegal fun _ _ => ⟨s, rfl⟩
  | true =>
    have hphase : s.phase = 1 ∨ s.phase = 2 ∨ s.phase = 3 := hp ▸ (phaseBusy_iff p).1 hbusy
    have henabled : s.EngineEnabled := ⟨hfault, hs.causeLegal, hphase⟩
    obtain ⟨vs, hvs, hS⟩ := hs.exists_valuesS (by obtain h | h | h := hphase <;> rw [h] <;> decide)
    obtain hstep | hstep | hstep | hstep := step_cases s.step <;> rw [hstep]
    · obtain ⟨hseg, hsegNat⟩ := lrcSegment_of_busy hbusy
      rw [sched_load hbusy]
      exact ⟨_, execLrc_eq henabled hseg (hsegNat ▸ hs.round_lt hp hbusy)⟩
    · obtain ⟨ks, hks, hK⟩ := hs.exists_valuesK hphase (hstep ▸ by decide)
      rw [sched_add hbusy]
      exact ⟨_, execArc_eq henabled hvs hks hS hK⟩
    · rw [sched_sbox hbusy]
      split
      · obtain ⟨v, rest, rfl⟩ := List.exists_cons_of_length_pos (hvs ▸ s.wf.width)
        exact ⟨_, execSbp_eq (v := v) henabled (by rw [hS]; rfl)⟩
      · exact ⟨_, execSbf_eq henabled hvs hS⟩
    · rw [sched_mix hbusy]
      exact ⟨_, execMds_eq henabled hvs hS⟩

/-- The word the scheduler emits decodes to the scheduled micro-operation, which completes. -/
theorem engineTurn_completes {s : State} (hs : s.Inv) : ∃ t, engineTurn s = .next t := by
  refine onCommand_completes hs.codesLegal fun p hp hfault => ?_
  rw [decodeCw_schedWord s.step (hs.round_lt hp)]
  exact exec_sched_completes hs hp hfault

/-! ## HOST's turn -/

/-- START completes on an operand of W lanes, accepted or not (44_scheduler.md R170). -/
theorem execStart_completes {s : State} {inp : List Lane} (hs : s.CodesLegal) (hinp : inp.length = s.cfg.w) :
    ∃ t, execStart inp s = .next t := by
  refine onCommand_completes hs fun p _ _ => ?_
  rw [if_neg (not_not.2 hinp)]
  split
  · exact ⟨_, rfl⟩
  · split <;> exact ⟨_, rfl⟩

theorem execAck_completes {s : State} (hs : s.CodesLegal) : ∃ t, execAck s = .next t := by
  refine onCommand_completes hs fun p _ _ => ?_
  split <;> exact ⟨_, rfl⟩

/-- The command of a code is NONE, START of the IN port or ACK (30_encoding.md R92). -/
theorem decodeCmd_eq_ok {code : CmdCode} {inp : List Lane} {i : Instr} (h : decodeCmd code inp = .ok i) :
    i = .noCommand ∨ i = .start inp ∨ i = .ack := by
  unfold decodeCmd at h
  split at h <;> cases h
  · exact .inl rfl
  · exact .inr (.inl rfl)
  · exact .inr (.inr rfl)

/-- Reset, each command and the reserved code all answer a next state where PHASE and FCAUSE hold legal codes. -/
theorem hostTurn_completes {s : State} {d : PortDrive} (hs : s.CodesLegal) (hd : d.inp.length = s.cfg.w) :
    ∃ t, hostTurn d s = .next t := by
  unfold hostTurn
  split
  · exact ⟨_, rfl⟩
  · split
    · next i hi =>
      obtain rfl | rfl | rfl := decodeCmd_eq_ok hi
      · exact onLegal_completes hs fun _ _ => ⟨s, rfl⟩
      · exact execStart_completes hs hd
      · exact execAck_completes hs
    · exact onCommand_completes hs fun _ _ _ => ⟨_, rfl⟩

/-! ## The step -/

theorem takeTurn_completes {turn : Turn} {s : State} (hs : s.Inv) (hturn : turn.Drivable s.cfg) :
    ∃ t, takeTurn turn s = .next t := by
  cases turn with
  | engine => exact engineTurn_completes hs
  | host d => exact hostTurn_completes hs.codesLegal hturn

/-- Settles O51: the turn that moves is the ENGINE's or a drivable one of the agenda, and each completes. -/
theorem noStepStops : Obligations.NoStepStops := by
  intro s hs hagenda
  unfold step
  split
  · exact engineTurn_completes hs
  · next turn rest hcons =>
    have hturn : turn.Drivable s.cfg := hagenda turn (hcons ▸ List.mem_cons_self)
    exact takeTurn_completes (hs.writeAgenda rest) hturn

end Sys2Proof.Machine
end

section
/-! The errors of RUN (45_host_wrapper.md R192, R194, R196, R199): which check fails on which input, and that RUN then
calls no engine. -/

namespace Sys2Proof.Machine

theorem checkInput_of_wrongLength {c : Config} {input : List Byte} (budget : BitVec 64) (hlen : input.length ≠ 32) :
    checkInput c input budget = .error .wrongLength := if_pos hlen

theorem checkInput_of_outOfBudget {c : Config} {input : List Byte} {budget : BitVec 64} (hlen : input.length = 32)
    (hbudget : budget.toNat < c.w * 10) : checkInput c input budget = .error .outOfBudget :=
  (if_neg (not_not.2 hlen)).trans (if_pos hbudget)

/-- With the length right and the budget sufficient the decoding decides. -/
theorem checkInput_of_affordable {c : Config} {input : List Byte} {budget : BitVec 64} (hlen : input.length = 32)
    (hbudget : c.w * 10 ≤ budget.toNat) : checkInput c input budget = decodeInput c input :=
  (if_neg (not_not.2 hlen)).trans (if_neg (Nat.not_lt.2 hbudget))

theorem decodeInput_of_reject {c : Config} {input : List Byte} (hle : c.p ≤ unbe32 input)
    (hreject : c.noncanon = .reject) : decodeInput c input = .error .invalidFieldEncoding := by
  rw [decodeInput, if_neg (Nat.not_lt.2 hle), hreject]

/-- A failed check is the reply, and the engine is not called (60_exceptions.md R210). -/
theorem runUnit_of_checkInput_error {s : State} {input : List Byte} {budget : BitVec 64} {e : RunError}
    (h : checkInput s.cfg input budget = .error e) : runUnit input budget s = .next (.err e, s) := by
  rw [runUnit, h]

/-- Settles O58: in each clause the checks fail with its error. -/
theorem runErrors : Obligations.RunErrors := by
  intro s input budget
  refine ⟨fun hlen => ?_, fun hlen hbudget => ?_, fun hlen hbudget hle hreject => ?_⟩ <;>
    apply runUnit_of_checkInput_error
  · exact checkInput_of_wrongLength budget hlen
  · exact checkInput_of_outOfBudget hlen hbudget
  · exact (checkInput_of_affordable hlen hbudget).trans (decodeInput_of_reject hle hreject)

end Sys2Proof.Machine
end

section
/-! The program PERMUTE (30_encoding.md R96) and the ENGINE alone step by step: its position after n steps of an
invocation, that it is busy there, the word it emits there, and what it has computed at the end (44_scheduler.md R164,
R167, R176). -/

namespace Sys2Proof.Machine

/-! ## PERMUTE, round by round -/

/-- The four instructions the scheduler names in round r of a phase (44_scheduler.md R161). -/
def roundProgram (p : Phase) (r : Nat) : List Instr :=
  [sched p (BitVec.ofNat 11 r) 0, sched p (BitVec.ofNat 11 r) 1, sched p (BitVec.ofNat 11 r) 2,
    sched p (BitVec.ofNat 11 r) 3]

@[simp] theorem roundProgram_length (p : Phase) (r : Nat) : (roundProgram p r).length = 4 := rfl

theorem roundProgram_getElem? (p : Phase) (r : Nat) (st : BitVec 2) :
    (roundProgram p r)[st.toNat]? = some (sched p (BitVec.ofNat 11 r) st) := by
  obtain rfl | rfl | rfl | rfl := step_cases st <;> rfl

/-- The instructions of all rounds of a phase, in order. -/
def phaseProgram (c : Config) (p : Phase) : List Instr := (List.range (phaseCount c p)).flatMap (roundProgram p)

/-- PERMUTE is the three phases' rounds, each as the scheduler names its instructions. -/
theorem permuteProgram_eq (c : Config) :
    permuteProgram c = phaseProgram c .full1 ++ phaseProgram c .part ++ phaseProgram c .full2 := rfl

/-- Blocks of four, one per index: the length of the whole. -/
theorem length_flatMap_range_four {α : Type} {f : Nat → List α} (hf : ∀ r, (f r).length = 4) (n : Nat) :
    ((List.range n).flatMap f).length = 4 * n := by
  simp [List.length_flatMap, hf, Nat.mul_comm]

/-- Blocks of four, one per index: entry k of block r. -/
theorem getElem?_flatMap_range_four {α : Type} {f : Nat → List α} (hf : ∀ r, (f r).length = 4) {n r k : Nat}
    (hr : r < n) (hk : k < 4) : ((List.range n).flatMap f)[4 * r + k]? = (f r)[k]? := by
  induction n with
  | zero => omega
  | succ n ih =>
    have hlen := length_flatMap_range_four hf n
    rw [List.range_succ, List.flatMap_append, List.flatMap_singleton]
    obtain hlt | rfl : r < n ∨ r = n := by omega
    · rw [List.getElem?_append_left (by omega), ih hlt]
    · rw [List.getElem?_append_right (by omega), hlen, Nat.add_sub_cancel_left]

theorem phaseProgram_length (c : Config) (p : Phase) : (phaseProgram c p).length = 4 * phaseCount c p :=
  length_flatMap_range_four (roundProgram_length p) _

theorem phaseProgram_getElem? {c : Config} {p : Phase} {r : Nat} (hr : r < phaseCount c p) (st : BitVec 2) :
    (phaseProgram c p)[4 * r + st.toNat]? = some (sched p (BitVec.ofNat 11 r) st) :=
  (getElem?_flatMap_range_four (roundProgram_length p) hr st.isLt).trans (roundProgram_getElem? p r st)

@[simp] theorem phaseCount_full1 (c : Config) : phaseCount c .full1 = half c := rfl
@[simp] theorem phaseCount_part (c : Config) : phaseCount c .part = c.rp := rfl
@[simp] theorem phaseCount_full2 (c : Config) : phaseCount c .full2 = half c := rfl

@[simp] theorem firstRound_full1 (c : Config) : firstRound c .full1 = 0 := rfl
@[simp] theorem firstRound_part (c : Config) : firstRound c .part = half c := rfl
@[simp] theorem firstRound_full2 (c : Config) : firstRound c .full2 = half c + c.rp := rfl

/-- RF is even (00_scope.md R4(c)), so the two full-round phases have all its rounds. -/
theorem rf_eq_half_add_half {c : Config} (hc : c.WellFormed) : c.rf = half c + half c := by
  have heven := hc.even
  rw [half]
  omega

theorem permuteProgram_length {c : Config} (hc : c.WellFormed) :
    (permuteProgram c).length = 4 * (c.rf + c.rp) := by
  have hrf := rf_eq_half_add_half hc
  simp only [permuteProgram_eq, List.length_append, phaseProgram_length, phaseCount_full1, phaseCount_part,
    phaseCount_full2]
  omega

/-- The instruction of a step is found in PERMUTE at the step's position, four per round (20_memory.md R57). -/
theorem permuteProgram_getElem? {c : Config} {p : Phase} {r : Nat} (hp : phaseBusy p = true)
    (hr : r < phaseCount c p) (st : BitVec 2) :
    (permuteProgram c)[4 * (firstRound c p + r) + st.toNat]? = some (sched p (BitVec.ofNat 11 r) st) := by
  have hst := st.isLt
  have hfull1 : (phaseProgram c .full1).length = 4 * half c := phaseProgram_length c .full1
  have hpart : (phaseProgram c .part).length = 4 * c.rp := phaseProgram_length c .part
  rw [← phaseProgram_getElem? hr st, permuteProgram_eq]
  cases p with
  | full1 =>
    rw [phaseCount_full1] at hr
    rw [firstRound_full1, Nat.zero_add, List.getElem?_append_left (by rw [List.length_append]; omega),
      List.getElem?_append_left (by omega)]
  | part =>
    rw [phaseCount_part] at hr
    rw [firstRound_part, List.getElem?_append_left (by rw [List.length_append]; omega),
      List.getElem?_append_right (by omega), hfull1]
    congr 1
    omega
  | full2 =>
    rw [firstRound_full2, List.getElem?_append_right (by rw [List.length_append]; omega), List.length_append, hfull1,
      hpart]
    congr 1
    omega
  | idle => cases hp
  | done => cases hp

/-! ## The position after n steps -/

/-- Below 4*(RF+RP) a step number is a step of a round of a phase. -/
theorem exists_position {c : Config} (hc : c.WellFormed) {n : Nat} (hn : n < 4 * (c.rf + c.rp)) :
    ∃ p r, ∃ st : BitVec 2, phaseBusy p = true ∧ r < phaseCount c p ∧ n = 4 * (firstRound c p + r) + st.toNat := by
  have hrf := rf_eq_half_add_half hc
  have hst : (BitVec.ofNat 2 n).toNat = n % 4 := by simp
  obtain h | ⟨h, h'⟩ | h : n / 4 < half c ∨ (half c ≤ n / 4 ∧ n / 4 < half c + c.rp) ∨ half c + c.rp ≤ n / 4 := by
    omega
  · refine ⟨.full1, n / 4, BitVec.ofNat 2 n, rfl, h, ?_⟩
    rw [firstRound_full1, hst]
    omega
  · refine ⟨.part, n / 4 - half c, BitVec.ofNat 2 n, rfl, ?_, ?_⟩
    · rw [phaseCount_part]
      omega
    · rw [firstRound_part, hst]
      omega
  · refine ⟨.full2, n / 4 - (half c + c.rp), BitVec.ofNat 2 n, rfl, ?_, ?_⟩
    · rw [phaseCount_full2]
      omega
    · rw [firstRound_full2, hst]
      omega

/-- The ENGINE enters a phase, or the one AFTER skips to, after the rounds of the phases before it. -/
theorem run_started_phase {s : State} {inp : List Lane} {p : Phase} (hs : s.RunsAlone) (hin : inp.length = s.cfg.w)
    (hp : phaseBusy p = true) :
    ∃ vs K, vs.length = s.cfg.w ∧ core.run (4 * firstRound s.cfg p) (started inp s) =
      .next (atPc s ⟨phaseCode (afterPhase s.cfg (phaseBefore p)), 0, 0⟩ vs K) := by
  have hlen : (inp.map (·.toNat)).length = s.cfg.w := (List.length_map _).trans hin
  have hfull : (afterFull1 s.cfg (inp.map (·.toNat))).length = s.cfg.w := by
    rw [afterFull1_eq_phaseRounds]
    exact phaseRounds_length s.wf .full1 _ hlen
  cases p with
  | full1 => exact ⟨_, _, hlen, rfl⟩
  | part =>
    obtain ⟨K, hrun⟩ := run_started_full1 hs hin
    exact ⟨_, K, hfull, hrun⟩
  | full2 =>
    obtain ⟨K, hrun⟩ := run_started_partial hs hin
    refine ⟨_, K, ?_, hrun⟩
    rw [afterPartial_eq_phaseRounds]
    exact phaseRounds_length s.wf .part _ hfull
  | idle => cases hp
  | done => cases hp

/-- ARC_g keeps the number of lanes: the window of a legal round has W words. -/
theorem arcRound_length {c : Config} {p : Phase} {r : Nat} {vs : List Nat} (hc : c.WellFormed)
    (hp : phaseBusy p = true) (hr : r < phaseCount c p) (hvs : vs.length = c.w) :
    (arcRound c (firstRound c p + r) vs).length = c.w := by
  rw [arcRound, ← windowWords_phase c hp, List.length_zipWith, hvs, windowWords_length hc hr, Nat.min_self]

/-- A step of a round begins after the steps before it. -/
theorem run_steps {s : State} {p : Phase} {r : BitVec 11} {vs : List Nat} (hs : s.RunsAlone)
    (hp : phaseBusy p = true) (hr : r.toNat < phaseCount s.cfg p) (hvs : vs.length = s.cfg.w) (K : List Reg)
    (st : BitVec 2) :
    ∃ vs' K', core.run st.toNat (atPc s ⟨phaseCode p, r, 0⟩ vs K) = .next (atPc s ⟨phaseCode p, r, st⟩ vs' K') := by
  have hload := step_load (vs := vs) hs hp hr K
  have hadd := step_addConstants hs hp hr hvs
  obtain rfl | rfl | rfl | rfl := step_cases st
  · exact ⟨vs, K, rfl⟩
  · exact ⟨_, _, run_succ_of_step hload 0⟩
  · exact ⟨_, _, (run_succ_of_step hload 1).trans (run_succ_of_step hadd 0)⟩
  · exact ⟨_, _, (run_succ_of_step hload 2).trans ((run_succ_of_step hadd 1).trans
      (run_succ_of_step (step_sbox hs hp hr (arcRound_length s.wf hp hr hvs) _) 0))⟩

/-- Where the ENGINE stands after as many steps of an invocation as lie before a position. -/
theorem run_started_position {s : State} {inp : List Lane} {p : Phase} {r : Nat} (hs : s.RunsAlone)
    (hin : inp.length = s.cfg.w) (hp : phaseBusy p = true) (hr : r < phaseCount s.cfg p) (st : BitVec 2) :
    ∃ vs K, core.run (4 * (firstRound s.cfg p + r) + st.toNat) (started inp s) =
      .next (atPc s ⟨phaseCode p, BitVec.ofNat 11 r, st⟩ vs K) := by
  obtain ⟨vs, K₁, hvs, hphase⟩ := run_started_phase hs hin hp
  rw [afterPhase_phaseBefore hp (by omega)] at hphase
  obtain ⟨K₂, hround⟩ := run_rounds hs hp hvs K₁ hr
  have hr' : (BitVec.ofNat 11 r).toNat < phaseCount s.cfg p := by rwa [toNat_round s.wf hr]
  rw [Nat.mul_add, Nat.add_assoc, run_add_of_next hphase, run_add_of_next hround]
  exact run_steps hs hp hr' (phaseRounds_length s.wf p r hvs) K₂ st

/-! ## What the position says -/

theorem busyFlag_of_phase {s : State} {p : Phase} (hs : s.phase = phaseCode p) (hp : phaseBusy p = true) :
    busyFlag s = true := by
  rw [busyFlag, hs]
  revert hp
  cases p <;> decide

theorem emitted_of_phase {s : State} {p : Phase} (hs : s.phase = phaseCode p) :
    s.emitted = some (schedWord p s.round s.step) := by
  rw [State.emitted, hs, phaseOf_phaseCode, Option.map_some]

/-- OUT in DONE is the values of S (10_state.md R33). -/
theorem readOut_of_done {s : State} {vs : List Nat} (hphase : s.phase = 4) (hfault : s.fault = false)
    (hlen : vs.length = s.cfg.w) (hS : s.S = vs.map some) : readOut s = .next (vs.map (BitVec.ofNat 256)) := by
  rw [readOut, doneFlag, hphase, hfault, hS, readLanes_map_some hlen]
  rfl

/-- Settles O53: the run of a whole invocation ends in DONE with `permute` of the input in S, where OUT shows it. -/
theorem computesPermutation : Obligations.ComputesPermutation := by
  intro s inp hs hagenda hin
  have halone := hs.runsAlone hagenda
  obtain ⟨K, hrun⟩ := run_started_done halone hin.1
  have hlen : (permute s.cfg (inp.map (·.toNat))).length = s.cfg.w :=
    permute_length s.wf ((List.length_map _).trans hin.1)
  exact ⟨started inp s, _, exec_start_of_ready hs hin, hrun, rfl, rfl, readOut_of_done rfl halone.fault hlen rfl⟩

/-- Settles O52: before the end every step number is a position in a busy phase, and the end is DONE. -/
theorem completesInExactSteps : Obligations.CompletesInExactSteps := by
  intro s inp hs hagenda hin
  have halone := hs.runsAlone hagenda
  refine ⟨started inp s, exec_start_of_ready hs hin, fun n hn => ?_, ?_⟩
  · obtain ⟨p, r, st, hp, hr, rfl⟩ := exists_position s.wf hn
    obtain ⟨vs, K, hrun⟩ := run_started_position halone hin.1 hp hr st
    exact ⟨_, hrun, busyFlag_of_phase rfl hp⟩
  · obtain ⟨K, hrun⟩ := run_started_done halone hin.1
    exact ⟨_, hrun, rfl, halone.fault⟩

/-- Settles O55: the position of step n and entry n of PERMUTE name the same instruction. -/
theorem emitsPermuteProgram : Obligations.EmitsPermuteProgram := by
  intro s inp hs hagenda hin
  refine ⟨permuteProgram_length s.wf, started inp s, exec_start_of_ready hs hin, fun n hn => ?_⟩
  obtain ⟨p, r, st, hp, hr, rfl⟩ := exists_position s.wf hn
  obtain ⟨vs, K, hrun⟩ := run_started_position (hs.runsAlone hagenda) hin.1 hp hr st
  have hr' : (BitVec.ofNat 11 r).toNat < phaseCount s.cfg p := by rwa [toNat_round s.wf hr]
  exact ⟨_, _, _, hrun, emitted_of_phase rfl, decodeCw_schedWord st fun _ => hr', permuteProgram_getElem? hp hr st⟩

end Sys2Proof.Machine
end

section
/-! Encoding and decoding (30_encoding.md R86 to R92): the format decoder by the OP field, the check of an LRC's round
after it, and that encoder and decoder undo each other on well-formed instructions. -/

namespace Sys2Proof

/-! ## The two stages of the decoder of control words -/

/-- A word the format decoder rejects is reserved under every configuration. -/
theorem decodeCw_of_format_error {c : Config} {w : CtlWord} {why : Reserved} (h : decodeFormat w = .error why) :
    decodeCw c w = .error why := by
  rw [decodeCw, h]

/-- An LRC whose round its segment does not have is reserved (30_encoding.md R90). -/
theorem decodeCw_of_format_lrc {c : Config} {w : CtlWord} {seg : BitVec 2} {rnd : BitVec 11}
    (h : decodeFormat w = .ok (.lrc seg rnd)) (hrnd : Machine.segCount c seg.toNat ≤ rnd.toNat) :
    decodeCw c w = .error .roundOutOfRange := by
  rw [decodeCw, h]
  exact if_neg (Nat.not_lt.2 hrnd)

/-- What a control word that decodes has passed: the format, and for an LRC the check of its round. -/
theorem decodeCw_eq_ok {c : Config} {w : CtlWord} {i : Instr} (h : decodeCw c w = .ok i) :
    decodeFormat w = .ok i ∧ ∀ seg rnd, i = .lrc seg rnd → rnd.toNat < Machine.segCount c seg.toNat := by
  unfold decodeCw at h
  split at h
  · next seg rnd hformat =>
    split at h
    · next hrnd =>
      cases h
      refine ⟨hformat, fun seg' rnd' heq => ?_⟩
      cases heq
      exact hrnd
    · cases h
  · next hother => exact ⟨h, fun seg rnd heq => absurd (heq ▸ h) (hother seg rnd)⟩

/-! ## The format decoder by the OP field -/

theorem noFields_of_zero {w : CtlWord} (h : w.extractLsb' 0 13 = 0) (i : Instr) : noFields w i = .ok i := if_pos h

theorem noFields_of_nonzero {w : CtlWord} (h : w.extractLsb' 0 13 ≠ 0) (i : Instr) :
    noFields w i = .error .nonzeroFields := if_neg h

section Format

variable {w : CtlWord}

theorem decodeFormat_of_op0 (h : cwOp w = 0) : decodeFormat w = noFields w .nop := by rw [decodeFormat, h]; rfl

theorem decodeFormat_of_op1 (h : cwOp w = 1) :
    decodeFormat w = if cwSeg w = 0 then .error .segZero else .ok (.lrc (cwSeg w) (cwRnd w)) := by
  rw [decodeFormat, h]; rfl

theorem decodeFormat_of_op2 (h : cwOp w = 2) : decodeFormat w = noFields w .arc := by rw [decodeFormat, h]; rfl

theorem decodeFormat_of_op3 (h : cwOp w = 3) : decodeFormat w = noFields w .sbf := by rw [decodeFormat, h]; rfl

theorem decodeFormat_of_op4 (h : cwOp w = 4) : decodeFormat w = noFields w .sbp := by rw [decodeFormat, h]; rfl

theorem decodeFormat_of_op5 (h : cwOp w = 5) : decodeFormat w = noFields w .mds := by rw [decodeFormat, h]; rfl

theorem decodeFormat_of_op6_or_op7 (h : cwOp w = 6 ∨ cwOp w = 7) : decodeFormat w = .error .opcode := by
  obtain h | h := h <;> rw [decodeFormat, h] <;> rfl

/-- The five operations without fields (30_encoding.md R87). -/
theorem decodeFormat_of_plain_op
    (h : cwOp w = 0 ∨ cwOp w = 2 ∨ cwOp w = 3 ∨ cwOp w = 4 ∨ cwOp w = 5) : ∃ i, decodeFormat w = noFields w i := by
  obtain h | h | h | h | h := h
  · exact ⟨_, decodeFormat_of_op0 h⟩
  · exact ⟨_, decodeFormat_of_op2 h⟩
  · exact ⟨_, decodeFormat_of_op3 h⟩
  · exact ⟨_, decodeFormat_of_op4 h⟩
  · exact ⟨_, decodeFormat_of_op5 h⟩

end Format

theorem op_cases (op : BitVec 3) :
    op = 0 ∨ op = 1 ∨ op = 2 ∨ op = 3 ∨ op = 4 ∨ op = 5 ∨ op = 6 ∨ op = 7 := by revert op; decide

/-! ## Encoder and decoder -/

/-- The format decoder reads the encoder's words back. -/
theorem decodeFormat_encode {i : Instr} {w : CtlWord} (h : encode i = .cw w)
    (hseg : ∀ seg rnd, i = .lrc seg rnd → seg ≠ 0) : decodeFormat w = .ok i := by
  cases i with
  | lrc seg rnd =>
    cases h
    rw [decodeFormat_of_op1 (cwOp_cwOf 1 seg rnd), cwSeg_cwOf, cwRnd_cwOf]
    exact if_neg (hseg seg rnd rfl)
  | nop => cases h; rfl
  | arc => cases h; rfl
  | sbf => cases h; rfl
  | sbp => cases h; rfl
  | mds => cases h; rfl
  | noCommand => cases h
  | start inp => cases h
  | ack => cases h

/-- A word whose SEG and RND are zero is its operation alone. -/
theorem encode_of_noFields {w : CtlWord} {op : BitVec 3} {i j : Instr} (hop : cwOp w = op)
    (hencode : encode j = .cw (cwOf op 0 0)) (h : noFields w j = .ok i) : encode i = .cw w := by
  obtain ⟨rfl, hseg, hrnd⟩ := noFields_eq_ok h
  rw [hencode, ← cwOf_fields w, hop, hseg, hrnd]

/-- The encoder writes the words of the format decoder back. -/
theorem encode_of_decodeFormat {w : CtlWord} {i : Instr} (h : decodeFormat w = .ok i) : encode i = .cw w := by
  obtain hop | hop | hop | hop | hop | hop | hop := op_cases (cwOp w)
  · exact encode_of_noFields hop rfl (decodeFormat_of_op0 hop ▸ h)
  · rw [decodeFormat_of_op1 hop] at h
    split at h
    · cases h
    · cases h
      rw [encode, ← hop, cwOf_fields]
  · exact encode_of_noFields hop rfl (decodeFormat_of_op2 hop ▸ h)
  · exact encode_of_noFields hop rfl (decodeFormat_of_op3 hop ▸ h)
  · exact encode_of_noFields hop rfl (decodeFormat_of_op4 hop ▸ h)
  · exact encode_of_noFields hop rfl (decodeFormat_of_op5 hop ▸ h)
  · rw [decodeFormat_of_op6_or_op7 hop] at h
    cases h

/-- No control word decodes to an LRC of segment 0 (30_encoding.md R90). -/
theorem decodeFormat_eq_lrc {w : CtlWord} {seg : BitVec 2} {rnd : BitVec 11}
    (h : decodeFormat w = .ok (.lrc seg rnd)) : seg ≠ 0 := by
  have hw := encode_of_decodeFormat h
  cases hw
  rw [decodeFormat_of_op1 (cwOp_cwOf 1 seg rnd), cwSeg_cwOf] at h
  rintro rfl
  cases h

/-- The legal operands of an LRC (30_encoding.md R88, R89). -/
theorem wellFormed_lrc_iff {c : Config} {seg : BitVec 2} {rnd : BitVec 11} :
    (Instr.lrc seg rnd).wellFormed c = true ↔ seg ≠ 0 ∧ rnd.toNat < Machine.segCount c seg.toNat := by
  simp [Instr.wellFormed]

/-- The operands of a control word that decodes are legal under the configuration (30_encoding.md R88 to R90). -/
theorem wellFormed_of_decodeCw {c : Config} {w : CtlWord} {i : Instr} (h : decodeCw c w = .ok i) :
    i.wellFormed c = true := by
  obtain ⟨hformat, hrnd⟩ := decodeCw_eq_ok h
  have hencode := encode_of_decodeFormat hformat
  cases i with
  | lrc seg rnd => exact wellFormed_lrc_iff.2 ⟨decodeFormat_eq_lrc hformat, hrnd seg rnd rfl⟩
  | nop => rfl
  | arc => rfl
  | sbf => rfl
  | sbp => rfl
  | mds => rfl
  | noCommand => cases hencode
  | start inp => cases hencode
  | ack => cases hencode

/-- The decoder reads back the word of a well-formed instruction. -/
theorem decodeCw_encode {c : Config} {i : Instr} {w : CtlWord} (h : encode i = .cw w) (hi : i.wellFormed c = true) :
    decodeCw c w = .ok i := by
  apply decodeCw_of_format (decodeFormat_encode h ?_)
  · rintro seg rnd rfl
    exact (wellFormed_lrc_iff.1 hi).2
  · rintro seg rnd rfl
    exact (wellFormed_lrc_iff.1 hi).1

/-- Settles O1: a control word passes both stages of the decoder, and a command code selects its command. -/
theorem decodeOfEncode : Obligations.DecodeOfEncode := by
  intro c i _ hi
  cases hencode : encode i with
  | cw w => exact decodeCw_encode hencode hi
  | cmd code inp => cases i <;> cases hencode <;> rfl

/-- Settles O2: the fields of a word that decodes are those of its instruction, and its operands passed the checks. -/
theorem encodeOfDecode : Obligations.EncodeOfDecode :=
  fun _ _ _ _ h => ⟨encode_of_decodeFormat (decodeCw_eq_ok h).1, wellFormed_of_decodeCw h⟩

/-- Settles O3: the format decoder by the OP field, then the check of an LRC's round. -/
theorem decodingOrder : Obligations.DecodingOrder := by
  intro c w _
  refine ⟨fun hop => decodeCw_of_format_error (decodeFormat_of_op6_or_op7 hop), fun hop => ?_, fun hw hop => ?_,
    fun hw => ?_⟩
  · have hformat := decodeFormat_of_op1 (w := w) hop
    refine ⟨fun hseg => decodeCw_of_format_error (hformat.trans (if_pos hseg)), fun hseg hrnd => ?_,
      fun hseg hrnd => ?_⟩
    · exact decodeCw_of_format_lrc (hformat.trans (if_neg hseg)) hrnd
    · refine decodeCw_of_format (hformat.trans (if_neg hseg)) fun seg rnd heq => ?_
      cases heq
      exact hrnd
  · obtain ⟨i, hformat⟩ := decodeFormat_of_plain_op (w := w) hop
    exact decodeCw_of_format_error (hformat.trans (noFields_of_nonzero hw i))
  · refine ⟨fun hop => ?_, fun hop => ?_, fun hop => ?_, fun hop => ?_, fun hop => ?_⟩
    · exact decodeCw_of_format ((decodeFormat_of_op0 hop).trans (noFields_of_zero hw _)) nofun
    · exact decodeCw_of_format ((decodeFormat_of_op2 hop).trans (noFields_of_zero hw _)) nofun
    · exact decodeCw_of_format ((decodeFormat_of_op3 hop).trans (noFields_of_zero hw _)) nofun
    · exact decodeCw_of_format ((decodeFormat_of_op4 hop).trans (noFields_of_zero hw _)) nofun
    · exact decodeCw_of_format ((decodeFormat_of_op5 hop).trans (noFields_of_zero hw _)) nofun

/-- An LRC's word under a configuration that has its round. -/
theorem decodeCw_lrc_encode {c : Config} {seg : BitVec 2} {rnd : BitVec 11} (hseg : seg ≠ 0)
    (hrnd : rnd.toNat < Machine.segCount c seg.toNat) : decodeCw c (cwOf 1 seg rnd) = .ok (.lrc seg rnd) :=
  decodeCw_encode rfl (wellFormed_lrc_iff.2 ⟨hseg, hrnd⟩)

/-- Settles O4: each word of the table is the encoding of its instruction. -/
theorem wordsOfTheTable : Obligations.WordsOfTheTable := by
  intro c inp _
  refine ⟨rfl, rfl, rfl, rfl, rfl, fun h => ?_, fun h => ?_, fun h => ?_, rfl, rfl, rfl, rfl⟩
  · exact decodeCw_lrc_encode (seg := 1) (rnd := 0) (by decide) h
  · exact decodeCw_lrc_encode (seg := 2) (rnd := 4) (by decide) h
  · exact decodeCw_lrc_encode (seg := 3) (rnd := 1) (by decide) h

end Sys2Proof
end

section
/-! The laws of the field operations (40_field_arithmetic.md R111 to R115), of the S-box INV (42_sbox.md R143) and of
MIX (43_mds.md R151). The operations are exact integers reduced mod P, so a law is one of the integers, or of `ZMod P`. -/

namespace Sys2Proof.Machine

/-! ## Addition, multiplication and powers -/

section Laws

variable {p : Nat}

@[simp] theorem cast_fadd (a b : Nat) : (fadd p a b : ZMod p) = a + b := by simp [fadd]

@[simp] theorem cast_fmul (a b : Nat) : (fmul p a b : ZMod p) = a * b := by simp [fmul]

@[simp] theorem cast_fpow (a e : Nat) : (fpow p a e : ZMod p) = (a : ZMod p) ^ e := by simp [fpow]

theorem fadd_lt (hp : 0 < p) (a b : Nat) : fadd p a b < p := Nat.mod_lt _ hp

theorem fmul_lt (hp : 0 < p) (a b : Nat) : fmul p a b < p := Nat.mod_lt _ hp

theorem fpow_lt (hp : 0 < p) (a e : Nat) : fpow p a e < p := Nat.mod_lt _ hp

/-- Field elements are the same when their residues are. -/
theorem eq_of_cast_eq {a b : Nat} (ha : a < p) (hb : b < p) (h : (a : ZMod p) = b) : a = b :=
  Nat.ModEq.eq_of_lt_of_lt ((ZMod.natCast_eq_natCast_iff a b p).1 h) ha hb

/-- The additive inverse (40_field_arithmetic.md R111). -/
theorem cast_fneg {a : Nat} (ha : a < p) : (((p - a) % p : Nat) : ZMod p) = -a := by
  rw [ZMod.natCast_mod, Nat.cast_sub ha.le, ZMod.natCast_self, zero_sub]

end Laws

/-- Settles O10: the laws of `ZMod P`, and the value of the sum on both sides of P. -/
theorem fieldAddition : Obligations.FieldAddition := by
  intro p hp a ha b hb
  have hpos := hp.pos
  have hneg := cast_fneg ha
  refine ⟨rfl, Nat.mod_eq_of_lt, fun hle => ?_, fadd_lt hpos a b, ?_, fun d _ => ?_, ?_, ?_, fun d hd hzero => ?_⟩
  · rw [fadd, Nat.mod_eq_sub_mod hle, Nat.mod_eq_of_lt (by omega)]
  · exact eq_of_cast_eq (fadd_lt hpos _ _) (fadd_lt hpos _ _) (by simp [add_comm])
  · exact eq_of_cast_eq (fadd_lt hpos _ _) (fadd_lt hpos _ _) (by simp [add_assoc])
  · exact Nat.mod_eq_of_lt ha
  · exact eq_of_cast_eq (fadd_lt hpos _ _) hpos (by rw [cast_fadd, hneg, add_neg_cancel, Nat.cast_zero])
  · apply eq_of_cast_eq hd (Nat.mod_lt _ hpos)
    have hsum : (a : ZMod p) + d = 0 := by rw [← cast_fadd, hzero, Nat.cast_zero]
    rw [hneg, eq_neg_of_add_eq_zero_right hsum]

/-- Settles O11: the laws of `ZMod P`. -/
theorem fieldMultiplication : Obligations.FieldMultiplication := by
  intro p hp a ha b _ d _
  have hpos := hp.pos
  refine ⟨rfl, fmul_lt hpos a b, ?_, ?_, ?_, ?_, rfl⟩
  · exact eq_of_cast_eq (fmul_lt hpos _ _) (fmul_lt hpos _ _) (by simp [mul_comm])
  · exact eq_of_cast_eq (fmul_lt hpos _ _) (fmul_lt hpos _ _) (by simp [mul_assoc])
  · exact eq_of_cast_eq (fmul_lt hpos _ _) (fadd_lt hpos _ _) (by simp [mul_add])
  · rw [fmul, mul_one, Nat.mod_eq_of_lt ha]

/-- Settles O12: the laws of powers in `ZMod P`; x^5 is x^2 * x^2 * x. -/
theorem fieldPower : Obligations.FieldPower := by
  intro p hp a _
  have hpos := hp.pos
  refine ⟨fun _ => rfl, ?_, fun e he => ?_, fun e => ?_, ?_⟩
  · rw [fpow, pow_zero, Nat.mod_eq_of_lt hp.one_lt]
  · rw [fpow, zero_pow (by omega), Nat.zero_mod]
  · exact eq_of_cast_eq (fpow_lt hpos _ _) (fmul_lt hpos _ _) (by simp [pow_succ])
  · exact eq_of_cast_eq (fpow_lt hpos _ _) (fmul_lt hpos _ _) (by simp; ring)

/-! ## Inversion -/

@[simp] theorem finv_zero (p : Nat) : finv p 0 = 0 := if_pos rfl

theorem cast_ne_zero {p a : Nat} (ha : a < p) (hpos : 0 < a) : (a : ZMod p) ≠ 0 := by
  rw [Ne, ZMod.natCast_eq_zero_iff]
  exact Nat.not_dvd_of_pos_of_lt hpos ha

section Inversion

variable {p : Nat} (hp : p.Prime)

include hp

theorem finv_lt (a : Nat) : finv p a < p := by
  rw [finv]
  split
  · exact hp.pos
  · exact fpow_lt hp.pos _ _

/-- Fermat: a * a^(P-2) is 1 for every nonzero a (40_field_arithmetic.md R114). -/
theorem fmul_finv {a : Nat} (ha : a < p) (hpos : 0 < a) : fmul p a (finv p a) = 1 := by
  have := Fact.mk hp
  have hfermat := ZMod.pow_card_sub_one_eq_one (cast_ne_zero ha hpos)
  have hsucc : p - 1 = (p - 2) + 1 := by have := hp.two_le; omega
  refine eq_of_cast_eq (fmul_lt hp.pos _ _) hp.one_lt ?_
  rw [cast_fmul, finv, if_neg hpos.ne', cast_fpow, Nat.cast_one, ← hfermat, hsucc, pow_succ, mul_comm]

/-- The inverse is unique. -/
theorem eq_finv_of_fmul_eq_one {a b : Nat} (ha : a < p) (hb : b < p) (h : fmul p a b = 1) : b = finv p a := by
  have := Fact.mk hp
  have hpos : 0 < a := Nat.pos_of_ne_zero fun hzero => by simp [hzero, fmul] at h
  have hboth : (a : ZMod p) * b = a * finv p a := by rw [← cast_fmul, ← cast_fmul, h, fmul_finv hp ha hpos]
  exact eq_of_cast_eq hb (finv_lt hp a) (mul_left_cancel₀ (cast_ne_zero ha hpos) hboth)

theorem finv_pos {a : Nat} (ha : a < p) (hpos : 0 < a) : 0 < finv p a :=
  Nat.pos_of_ne_zero fun hzero => by simpa [hzero, fmul] using fmul_finv hp ha hpos

/-- Inversion is its own inverse: the inverse of 0 is 0, and a is an inverse of its inverse. -/
theorem finv_finv {a : Nat} (ha : a < p) : finv p (finv p a) = a := by
  obtain rfl | hpos := Nat.eq_zero_or_pos a
  · rw [finv_zero, finv_zero]
  · refine (eq_finv_of_fmul_eq_one hp (finv_lt hp a) ha ?_).symm
    rw [fmul, Nat.mul_comm]
    exact fmul_finv hp ha hpos

theorem finv_one : finv p 1 = 1 :=
  (eq_finv_of_fmul_eq_one hp hp.one_lt hp.one_lt (Nat.mod_eq_of_lt hp.one_lt)).symm

/-- P - 1 is -1, whose square is 1. -/
theorem finv_sub_one : finv p (p - 1) = p - 1 := by
  have hlt : p - 1 < p := Nat.sub_one_lt_of_lt hp.pos
  refine (eq_finv_of_fmul_eq_one hp hlt hlt (eq_of_cast_eq (fmul_lt hp.pos _ _) hp.one_lt ?_)).symm
  rw [cast_fmul, Nat.cast_pred hp.pos, ZMod.natCast_self, Nat.cast_one]
  ring

end Inversion

/-- Settles O13: Fermat gives the inverse, and the primality of P its uniqueness. -/
theorem fieldInversion : Obligations.FieldInversion := by
  intro p hp a ha
  refine ⟨fun hpos => ⟨finv_pos hp ha hpos, finv_lt hp a, fmul_finv hp ha hpos,
    fun b hb => eq_finv_of_fmul_eq_one hp ha hb, if_neg hpos.ne'⟩, finv_zero p, finv_finv hp ha, finv_one hp, finv_sub_one hp⟩

theorem sboxMap_of_inv {c : Config} (h : c.sbox = .inv) (x : Nat) : sboxMap c x = finv c.p x := by
  rw [sboxMap, h]

/-- Settles O16: under INV the S-box is field inversion. -/
theorem sboxInversion : Obligations.SboxInversion := by
  intro c hc hinv
  have hp := hc.prime
  have hmap := sboxMap_of_inv hinv
  refine ⟨fun x hx => ⟨sboxMap_lt hc x, ?_, fun hpos => ?_⟩, ?_, ?_, ?_⟩
  · rw [hmap, hmap, finv_finv hp hx]
  · rw [hmap]
    exact fmul_finv hp hx hpos
  · rw [hmap, finv_zero]
  · rw [hmap, finv_one hp]
  · rw [hmap, finv_sub_one hp]

/-! ## Dot product and MIX -/

/-- Settles O14: one product more on either side, reduced at once or in the sum. -/
theorem dotProduct : Obligations.DotProduct := by
  intro p _ ms
  induction ms with
  | nil => exact fun ss => Nat.zero_mod p
  | cons m ms ih =>
    rintro (_ | ⟨x, ss⟩)
    · exact Nat.zero_mod p
    · rw [List.zipWith_cons_cons, List.foldr_cons, ← ih ss, fdot, List.zipWith_cons_cons, List.sum_cons, Nat.add_mod]
      rfl

theorem fdot_lt {p : Nat} (hp : 0 < p) (ms ss : List Nat) : fdot p ms ss < p := Nat.mod_lt _ hp

@[simp] theorem fdot_nil_left (p : Nat) (ss : List Nat) : fdot p [] ss = 0 := Nat.zero_mod p

@[simp] theorem fdot_nil_right (p : Nat) (ms : List Nat) : fdot p ms [] = 0 := by
  rw [fdot, List.zipWith_nil_right, List.sum_nil, Nat.zero_mod]

@[simp] theorem cast_fdot_cons (p m x : Nat) (ms ss : List Nat) :
    (fdot p (m :: ms) (x :: ss) : ZMod p) = m * x + fdot p ms ss := by
  simp [fdot]

/-- The dot product is additive in the state. -/
theorem fdot_zipWith_fadd {p : Nat} (hp : 0 < p) (row : List Nat) {a b : List Nat} (hlen : a.length = b.length) :
    fdot p row (List.zipWith (fadd p) a b) = fadd p (fdot p row a) (fdot p row b) := by
  apply eq_of_cast_eq (fdot_lt hp _ _) (fadd_lt hp _ _)
  induction row generalizing a b with
  | nil => simp
  | cons m row ih =>
    match a, b, hlen with
    | [], [], _ => simp
    | x :: a, y :: b, hlen =>
      rw [List.zipWith_cons_cons, cast_fdot_cons, ih (Nat.succ.inj hlen)]
      simp only [cast_fadd, cast_fdot_cons]
      ring

/-- The dot product is homogeneous in the state. -/
theorem fdot_map_fmul {p : Nat} (hp : 0 < p) (row a : List Nat) (k : Nat) :
    fdot p row (a.map (fmul p k)) = fmul p k (fdot p row a) := by
  apply eq_of_cast_eq (fdot_lt hp _ _) (fmul_lt hp _ _)
  induction row generalizing a with
  | nil => simp
  | cons m row ih =>
    cases a with
    | nil => simp
    | cons x a =>
      rw [List.map_cons, cast_fdot_cons, ih]
      simp only [cast_fmul, cast_fdot_cons]
      ring

/-- Settles O17: MIX is a dot product per row, and each is linear. -/
theorem mixIsLinear : Obligations.MixIsLinear := by
  intro c hc a b ha hb
  have hpos := hc.pos
  refine ⟨?_, fun k => ?_⟩
  · rw [mixLayer, mixLayer, mixLayer, List.zipWith_map, List.zipWith_self]
    exact List.map_congr_left fun row _ => fdot_zipWith_fadd hpos row (ha.trans hb.symm)
  · rw [mixLayer, mixLayer, List.map_map]
    exact List.map_congr_left fun row _ => fdot_map_fmul hpos row a k

end Sys2Proof.Machine
end

section
/-! The addresses of the round constants by the global round number (20_memory.md R54, R57), the addresses one
invocation reads (41_round_constants.md R133), and how often it executes each micro-operation (70_reset_and_hazards.md R251). -/

namespace Sys2Proof.Machine

/-! ## The windows by the global round number -/

/-- The global number of a segment's first round (20_memory.md R57). -/
def segFirst (c : Config) : Nat → Nat
  | 2 => half c
  | 3 => half c + c.rp
  | _ => 0

theorem segBase_eq (c : Config) (seg : Nat) : segBase c seg = segFirst c seg * c.w :=
  match seg with
  | 0 => (Nat.zero_mul _).symm
  | 1 => (Nat.zero_mul _).symm
  | 2 => rfl
  | 3 => (Nat.add_mul _ _ _).symm
  | _ + 4 => (Nat.zero_mul _).symm

/-- The window of round g, in the global numbering, starts at g*W. -/
theorem windowAddr_eq (c : Config) (seg r i : Nat) : windowAddr c seg r i = (segFirst c seg + r) * c.w + i := by
  rw [windowAddr, segBase_eq, ← Nat.add_mul]

/-- Settles O7: the first rounds of the segments, and RF = 2*HALF. -/
theorem flatWindowForm : Obligations.FlatWindowForm := by
  intro c hc
  have hrf := rf_eq_half_add_half hc
  refine ⟨fun r _ i => ?_, fun r _ i => windowAddr_eq c 2 r i, fun r _ i => windowAddr_eq c 3 r i, ?_⟩
  · rw [windowAddr_eq, show segFirst c 1 = 0 from rfl, Nat.zero_add]
  · simp only [segCount]
    omega

/-- Every global round number is a round of a segment. -/
theorem exists_segment {c : Config} (hc : c.WellFormed) {g : Nat} (hg : g < c.rf + c.rp) :
    ∃ seg r, 1 ≤ seg ∧ seg ≤ 3 ∧ r < segCount c seg ∧ segFirst c seg + r = g := by
  have hrf := rf_eq_half_add_half hc
  obtain h | ⟨h, h'⟩ | h : g < half c ∨ (half c ≤ g ∧ g < half c + c.rp) ∨ half c + c.rp ≤ g := by omega
  · exact ⟨1, g, by decide, by decide, h, Nat.zero_add g⟩
  · exact ⟨2, g - half c, by decide, by decide, by simp only [segCount]; omega, by simp only [segFirst]; omega⟩
  · exact ⟨3, g - (half c + c.rp), by decide, by decide, by simp only [segCount]; omega, by simp only [segFirst]; omega⟩

/-- A segment ends before a later one begins. -/
theorem segFirst_add_segCount_le (c : Config) {seg seg' : Nat} (hlow : 1 ≤ seg) (hlater : seg < seg')
    (hhigh : seg' ≤ 3) : segFirst c seg + segCount c seg ≤ segFirst c seg' := by
  obtain ⟨rfl, rfl⟩ | ⟨rfl, rfl⟩ | ⟨rfl, rfl⟩ :
      (seg = 1 ∧ seg' = 2) ∨ (seg = 1 ∧ seg' = 3) ∨ (seg = 2 ∧ seg' = 3) := by omega
  all_goals
    simp only [segFirst, segCount]
    omega

/-- A global round number is a round of one segment only. -/
theorem segment_unique {c : Config} {seg seg' r r' : Nat} (hseg : 1 ≤ seg ∧ seg ≤ 3) (hseg' : 1 ≤ seg' ∧ seg' ≤ 3)
    (hr : r < segCount c seg) (hr' : r' < segCount c seg') (h : segFirst c seg' + r' = segFirst c seg + r) :
    seg' = seg ∧ r' = r := by
  obtain hlt | rfl | hlt := Nat.lt_trichotomy seg seg'
  · have hend := segFirst_add_segCount_le c hseg.1 hlt hseg'.2
    omega
  · exact ⟨rfl, Nat.add_left_cancel h⟩
  · have hend := segFirst_add_segCount_le c hseg'.1 hlt hseg.2
    omega

/-- Settles O6: an address is i + g*W for one i below W and one g, and g is a round of one segment. -/
theorem segmentsTileRom : Obligations.SegmentsTileRom := by
  intro c hc a ha
  have hw : 0 < c.w := hc.width
  have hg : a / c.w < c.rf + c.rp := Nat.div_lt_of_lt_mul ha
  obtain ⟨seg, r, hlow, hhigh, hr, hround⟩ := exists_segment hc hg
  refine ⟨seg, r, a % c.w, ⟨hlow, hhigh, hr, Nat.mod_lt _ hw⟩, ?_, ?_⟩
  · rw [windowAddr_eq, hround, Nat.div_add_mod']
  · rintro seg' r' i' ⟨hlow', hhigh', hr', hi'⟩ haddr
    rw [windowAddr_eq, Nat.mul_comm] at haddr
    obtain ⟨hquot, hrem⟩ := (Nat.div_mod_unique hw).2 ⟨(Nat.add_comm _ _).trans haddr, hi'⟩
    obtain ⟨rfl, rfl⟩ := segment_unique ⟨hlow, hhigh⟩ ⟨hlow', hhigh'⟩ hr hr' (hquot.symm.trans hround.symm)
    exact ⟨rfl, rfl, hrem.symm⟩

/-! ## The addresses one invocation reads -/

/-- The addresses an instruction reads of the round-constant ROM (41_round_constants.md R130). -/
def addressesRead (c : Config) : Instr → List Nat
  | .lrc seg rnd => (List.range c.w).map (windowAddr c seg.toNat rnd.toNat)
  | _ => []

theorem addressesRead_roundProgram {c : Config} (hc : c.WellFormed) {p : Phase} (hp : phaseBusy p = true) {r : Nat}
    (hr : r < phaseCount c p) :
    (roundProgram p r).flatMap (addressesRead c) = List.range' ((firstRound c p + r) * c.w) c.w := by
  have hfirst : segFirst c (phaseCode p).toNat = firstRound c p := by
    cases p with
    | full1 => rfl
    | part => rfl
    | full2 => rfl
    | idle => cases hp
    | done => cases hp
  have hwindow : addressesRead c (sched p (BitVec.ofNat 11 r) 0) = List.range' ((firstRound c p + r) * c.w) c.w := by
    obtain ⟨-, hseg⟩ := lrcSegment_of_busy hp
    rw [sched_load hp, addressesRead, hseg, toNat_round hc hr, List.range'_eq_map_range, ← hfirst]
    exact List.map_congr_left fun i _ => windowAddr_eq c _ r i
  have hadd : addressesRead c (sched p (BitVec.ofNat 11 r) 1) = [] := by
    rw [sched_add hp]
    rfl
  have hmix : addressesRead c (sched p (BitVec.ofNat 11 r) 3) = [] := by
    rw [sched_mix hp]
    rfl
  have hsbox : addressesRead c (sched p (BitVec.ofNat 11 r) 2) = [] := by
    rw [sched_sbox hp]
    split <;> rfl
  simp only [roundProgram, List.flatMap_cons, List.flatMap_nil, hwindow, hadd, hsbox, hmix, List.append_nil]

/-- Windows one after another are one range of addresses. -/
theorem flatMap_range_windows (a n w : Nat) :
    (List.range n).flatMap (fun r => List.range' ((a + r) * w) w) = List.range' (a * w) (n * w) := by
  induction n with
  | zero => simp
  | succ n ih =>
    rw [List.range_succ, List.flatMap_append, List.flatMap_singleton, ih, Nat.add_mul, Nat.succ_mul,
      List.range'_append_1]

theorem addressesRead_phaseProgram {c : Config} (hc : c.WellFormed) {p : Phase} (hp : phaseBusy p = true) :
    (phaseProgram c p).flatMap (addressesRead c) = List.range' (firstRound c p * c.w) (phaseCount c p * c.w) := by
  rw [phaseProgram, List.flatMap_assoc, ← flatMap_range_windows]
  exact List.flatMap_congr fun r hr => addressesRead_roundProgram hc hp (List.mem_range.1 hr)

/-- Settles O8: the ranges of the three phases are contiguous from 0 on. -/
theorem everyConstantLoadedOnce : Obligations.EveryConstantLoadedOnce := by
  intro c hc
  have hread : (permuteProgram c).flatMap (addressesRead c) = List.range (nrc c) := by
    rw [permuteProgram_eq, List.flatMap_append, List.flatMap_append, addressesRead_phaseProgram hc rfl,
      addressesRead_phaseProgram hc rfl, addressesRead_phaseProgram hc rfl]
    have hsplit : nrc c = half c * c.w + c.rp * c.w + half c * c.w := by
      rw [nrc, rf_eq_half_add_half hc]
      ring
    rw [firstRound_full1, firstRound_part, firstRound_full2, phaseCount_full1, phaseCount_part, phaseCount_full2,
      Nat.add_mul, hsplit, Nat.zero_mul, List.range_eq_range', ← List.range'_append_1, ← List.range'_append_1,
      Nat.zero_add, Nat.zero_add]
  exact hread

/-! ## How often each micro-operation is executed -/

/-- A phase executes an instruction as often as each of its rounds does, times their number. -/
theorem count_phaseProgram {p : Phase} {i : Instr} {k : Nat} (h : ∀ r, (roundProgram p r).count i = k) (c : Config) :
    (phaseProgram c p).count i = phaseCount c p * k := by
  simp [phaseProgram, List.count_flatMap, Function.comp_def, h]

/-- An invocation executes an instruction as often as the rounds of its three phases do. -/
theorem count_permuteProgram {i : Instr} {k₁ k₂ k₃ : Nat} (h₁ : ∀ r, (roundProgram .full1 r).count i = k₁)
    (h₂ : ∀ r, (roundProgram .part r).count i = k₂) (h₃ : ∀ r, (roundProgram .full2 r).count i = k₃) (c : Config) :
    (permuteProgram c).count i = half c * k₁ + c.rp * k₂ + half c * k₃ := by
  rw [permuteProgram_eq, List.count_append, List.count_append, count_phaseProgram h₁, count_phaseProgram h₂,
    count_phaseProgram h₃]
  rfl

/-- Settles O56: each round has one ARC, one MDS, and SBP in PARTIAL or SBF in the full rounds. -/
theorem workPerInvocation : Obligations.WorkPerInvocation := by
  intro c hc
  have hrf := rf_eq_half_add_half hc
  refine ⟨permuteProgram_length hc, ?_, ?_, ?_, ?_⟩
  · rw [count_permuteProgram (k₁ := 1) (k₂ := 1) (k₃ := 1) (fun _ => rfl) (fun _ => rfl) (fun _ => rfl)]
    omega
  · rw [count_permuteProgram (k₁ := 1) (k₂ := 0) (k₃ := 1) (fun _ => rfl) (fun _ => rfl) (fun _ => rfl)]
    omega
  · rw [count_permuteProgram (k₁ := 0) (k₂ := 1) (k₃ := 0) (fun _ => rfl) (fun _ => rfl) (fun _ => rfl)]
    omega
  · rw [count_permuteProgram (k₁ := 1) (k₂ := 1) (k₃ := 1) (fun _ => rfl) (fun _ => rfl) (fun _ => rfl)]
    omega

end Sys2Proof.Machine
end

section
/-! What a turn of either agent can have done to the registers (44_scheduler.md R166, R170 to R172; 60_exceptions.md
R214; 70_reset_and_hazards.md R240), said once for every instruction, and what follows for the step. -/

namespace Sys2Proof.Machine

/-! ## The step as a turn -/

theorem step_of_nil {s : State} (h : s.agenda = []) : step s = engineTurn s := by rw [step, h]

theorem step_of_engine {s : State} {rest : List Turn} (h : s.agenda = .engine :: rest) :
    step s = engineTurn (writeAgenda s rest) := by rw [step, h]; rfl

theorem step_of_host {s : State} {d : PortDrive} {rest : List Turn} (h : s.agenda = .host d :: rest) :
    step s = hostTurn d (writeAgenda s rest) := by rw [step, h]; rfl

theorem hostTurn_of_reset {s : State} {d : PortDrive} (h : d.rst = true) : hostTurn d s = .next (resetRegs s) :=
  if_pos h

theorem hostTurn_of_command {s : State} {d : PortDrive} {i : Instr} (hrst : d.rst = false)
    (h : decodeCmd d.cmd d.inp = .ok i) : hostTurn d s = exec i s := by
  rw [hostTurn, hrst, h]; rfl

theorem hostTurn_of_reserved {s : State} {d : PortDrive} {why : Reserved} (hrst : d.rst = false)
    (h : decodeCmd d.cmd d.inp = .error why) :
    hostTurn d s = onCommand s fun _ => .next (raiseFault badCmd s) := by
  rw [hostTurn, hrst, h]; rfl

/-! ## The ENGINE's turn -/

/-- The only word the ENGINE executes is that of the scheduled micro-operation (44_scheduler.md R161, R166). -/
theorem engineTurn_next_sched {s t : State} (h : engineTurn s = .next t) :
    (s.fault = true ∧ t = s) ∨
      (s.fault = false ∧ ∃ p, s.phase = phaseCode p ∧ exec (sched p s.round s.step) s = .next t) := by
  refine (engineTurn_next h).imp_right (And.imp_right ?_)
  rintro ⟨p, i, hp, hi, hexec⟩
  obtain ⟨hformat, -⟩ := decodeCw_eq_ok hi
  rw [decodeFormat_schedWord] at hformat
  cases hformat
  exact ⟨p, hp, hexec⟩

/-- A state with S and K replaced. -/
def withData (s : State) (S K : List Reg) : State := { s with S := S, K := K }

@[simp] theorem withData_cfg (s : State) (S K : List Reg) : (withData s S K).cfg = s.cfg := rfl
@[simp] theorem withData_round (s : State) (S K : List Reg) : (withData s S K).round = s.round := rfl
@[simp] theorem withData_step (s : State) (S K : List Reg) : (withData s S K).step = s.step := rfl
@[simp] theorem withData_fault (s : State) (S K : List Reg) : (withData s S K).fault = s.fault := rfl
@[simp] theorem withData_agenda (s : State) (S K : List Reg) : (withData s S K).agenda = s.agenda := rfl

/-- A busy phase's micro-operation that completes: it writes S and K at most, and applies NEXT. -/
theorem exec_sched_next {s t : State} {p : Phase} {r : BitVec 11} {st : BitVec 2} (hbusy : phaseBusy p = true)
    (h : exec (sched p r st) s = .next t) :
    (s.fault = true ∧ t = s) ∨
      (s.EngineEnabled ∧ ∃ q S K, s.phase = phaseCode q ∧ t = advance q (withData s S K)) := by
  obtain rfl | rfl | rfl | rfl := step_cases st
  · rw [sched_load hbusy] at h
    refine (execLrc_next h).imp_right (And.imp_right ?_)
    rintro ⟨q, ks, hq, -, -, -, rfl⟩
    exact ⟨q, s.S, ks.map some, hq, rfl⟩
  · rw [sched_add hbusy] at h
    refine (execArc_next h).imp_right (And.imp_right ?_)
    rintro ⟨q, vs, ks, hq, -, -, rfl⟩
    exact ⟨q, _, s.K, hq, rfl⟩
  · rw [sched_sbox hbusy] at h
    split at h
    · refine (execSbp_next h).imp_right (And.imp_right ?_)
      rintro ⟨q, v, hq, -, rfl⟩
      exact ⟨q, _, s.K, hq, rfl⟩
    · refine (execSbf_next h).imp_right (And.imp_right ?_)
      rintro ⟨q, vs, hq, -, rfl⟩
      exact ⟨q, _, s.K, hq, rfl⟩
  · rw [sched_mix hbusy] at h
    refine (execMds_next h).imp_right (And.imp_right ?_)
    rintro ⟨q, vs, rows, hq, -, -, rfl⟩
    exact ⟨q, _, s.K, hq, rfl⟩

/-- The ENGINE's turn changes nothing, or it is enabled, writes S and K at most and applies NEXT. -/
theorem engineTurn_effect {s t : State} (h : engineTurn s = .next t) :
    t = s ∨ (s.EngineEnabled ∧ ∃ p S K, s.phase = phaseCode p ∧ t = advance p (withData s S K)) := by
  obtain ⟨-, rfl⟩ | ⟨-, p, hp, hexec⟩ := engineTurn_next_sched h
  · exact .inl rfl
  · cases hbusy : phaseBusy p with
    | false =>
      rw [sched_waiting hbusy] at hexec
      exact .inl (onLegal_self_next hexec)
    | true => exact (exec_sched_next hbusy hexec).imp_left And.right

/-! ## HOST's turn -/

/-- What a host command that completes can have done. -/
inductive CommandEffect (s : State) : State → Prop where
  /-- NONE, or a command while FAULT = 1 (44_scheduler.md R172, R174) -/
  | nothing : CommandEffect s s
  /-- BAD_CMD or NONCANON_IN (60_exceptions.md R214 to R216) -/
  | raised (cause : BitVec 2) (hfault : s.fault = false) (hcause : cause = badCmd ∨ cause = nonCanonIn) :
      CommandEffect s { s with fault := true, fcause := cause }
  /-- an accepted START (44_scheduler.md R170) -/
  | began (inp : List Lane) (hready : s.Ready) (hin : AcceptedInput s.cfg inp) : CommandEffect s (started inp s)
  /-- ACK in DONE (44_scheduler.md R171) -/
  | released (hfault : s.fault = false) (hphase : s.phase = 4) :
      CommandEffect s (writePc (dropAll s) ⟨phaseCode .idle, 0, 0⟩)

theorem phaseBusy_eq_false_iff (p : Phase) : phaseBusy p = false ↔ (phaseCode p = 0 ∨ phaseCode p = 4) := by
  cases p <;> decide

theorem acceptedInput_of_anyNonCanonical {c : Config} {inp : List Lane} (hlen : inp.length = c.w)
    (h : anyNonCanonical c inp = false) : AcceptedInput c inp :=
  ⟨hlen, by simpa [anyNonCanonical] using h⟩

theorem raised_of_raiseFault {s : State} {cause : BitVec 2} (hfault : s.fault = false)
    (hcause : cause = badCmd ∨ cause = nonCanonIn) : CommandEffect s (raiseFault cause s) := by
  rw [raiseFault_of_clear hfault]
  exact .raised cause hfault hcause

theorem execStart_effect {s t : State} {inp : List Lane} (h : execStart inp s = .next t) : CommandEffect s t := by
  obtain ⟨-, rfl⟩ | ⟨hfault, hcause, p, hp, ⟨-, rfl⟩ | ⟨hbusy, hlen, ⟨-, rfl⟩ | ⟨hgood, rfl⟩⟩⟩ := execStart_next h
  · exact .nothing
  · exact raised_of_raiseFault hfault (.inl rfl)
  · exact raised_of_raiseFault hfault (.inr rfl)
  · exact .began inp ⟨hfault, hcause, hp ▸ (phaseBusy_eq_false_iff p).1 hbusy⟩
      (acceptedInput_of_anyNonCanonical hlen hgood)

theorem execAck_effect {s t : State} (h : execAck s = .next t) : CommandEffect s t := by
  obtain ⟨-, rfl⟩ | ⟨hfault, -, p, hp, ⟨rfl, rfl⟩ | ⟨-, rfl⟩⟩ := execAck_next h
  · exact .nothing
  · exact .released hfault hp
  · exact raised_of_raiseFault hfault (.inl rfl)

/-- HOST's turn is a reset, or has the effect of a command; the reserved code raises BAD_CMD (60_exceptions.md R215). -/
theorem hostTurn_effect {s t : State} {d : PortDrive} (h : hostTurn d s = .next t) :
    (d.rst = true ∧ t = resetRegs s) ∨ (d.rst = false ∧ CommandEffect s t) := by
  refine (hostTurn_next h).imp_right (And.imp_right ?_)
  rintro (⟨i, hi, hexec⟩ | ⟨why, -, rfl⟩)
  · obtain rfl | rfl | rfl := decodeCmd_eq_ok hi
    · rw [onLegal_self_next hexec]
      exact .nothing
    · exact execStart_effect hexec
    · exact execAck_effect hexec
  · cases hfault : s.fault with
    | true =>
      rw [raiseFault_of_set hfault]
      exact .nothing
    | false => exact raised_of_raiseFault hfault (.inl rfl)

/-! ## A change of phase -/

/-- NEXT stays in the phase or begins another at round 0 (44_scheduler.md R163). -/
theorem nextPc_phase_change (c : Config) (p : Phase) (r : BitVec 11) (st : BitVec 2) :
    (nextPc c p r st).phase = phaseCode p ∨ ((nextPc c p r st).round = 0 ∧ (nextPc c p r st).step = 0) := by
  by_cases hstep : st.toNat < 3
  · exact .inl (by rw [nextPc_within hstep])
  · by_cases hround : r.toNat + 1 < phaseCount c p
    · exact .inl (by rw [nextPc_round hstep hround])
    · exact .inr (by rw [nextPc_phase hstep hround]; exact ⟨rfl, rfl⟩)

theorem engineTurn_phase_change {s t : State} (h : engineTurn s = .next t) :
    t.phase = s.phase ∨ (t.round = 0 ∧ t.step = 0) := by
  obtain rfl | ⟨-, p, S, K, hp, rfl⟩ := engineTurn_effect h
  · exact .inl rfl
  · exact (nextPc_phase_change s.cfg p s.round s.step).imp_left fun hsame => hsame.trans hp.symm

theorem hostTurn_phase_change {s t : State} {d : PortDrive} (h : hostTurn d s = .next t) :
    t.phase = s.phase ∨ (t.round = 0 ∧ t.step = 0) := by
  obtain ⟨-, rfl⟩ | ⟨-, heffect⟩ := hostTurn_effect h
  · exact .inr ⟨rfl, rfl⟩
  · cases heffect with
    | nothing => exact .inl rfl
    | raised cause hfault hcause => exact .inl rfl
    | began inp hready hin => exact .inr ⟨rfl, rfl⟩
    | released hfault hphase => exact .inr ⟨rfl, rfl⟩

/-- Settles O33: NEXT, START, ACK and reset begin another phase at (0,0), and nothing else changes PHASE. -/
theorem phaseChangeRestartsRound : Obligations.PhaseChangeRestartsRound := by
  intro s t h hne
  have hchange : t.phase = s.phase ∨ (t.round = 0 ∧ t.step = 0) := by
    obtain ⟨-, hturn⟩ | ⟨turn, rest, -, hturn⟩ := step_next h
    · exact engineTurn_phase_change hturn
    · cases turn with
      | engine => exact engineTurn_phase_change (s := writeAgenda s rest) hturn
      | host d => exact hostTurn_phase_change (s := writeAgenda s rest) hturn
  exact hchange.resolve_left hne

/-! ## Who clears FAULT -/

theorem engineTurn_keeps_fault {s t : State} (h : engineTurn s = .next t) (hfault : s.fault = true) :
    t.fault = true := by
  obtain rfl | ⟨-, p, S, K, -, rfl⟩ := engineTurn_effect h
  · exact hfault
  · exact hfault

theorem CommandEffect.keeps_fault {s t : State} (h : CommandEffect s t) (hfault : s.fault = true) :
    t.fault = true := by
  cases h with
  | nothing => exact hfault
  | raised cause hclear hcause => rfl
  | began inp hready hin => exact hfault
  | released hclear hphase => exact hfault

/-- Settles O45: a HOST turn with RST is `resetRegs`, and every other turn keeps FAULT = 1. -/
theorem resetFromAnyState : Obligations.ResetFromAnyState := by
  refine ⟨fun s d rest hagenda hrst => ?_, fun s t h hfault hclear => ?_⟩
  · rw [step_of_host hagenda, hostTurn_of_reset hrst]
    rfl
  · have hkept : t.fault ≠ true := by rw [hclear]; decide
    obtain ⟨-, hturn⟩ | ⟨turn, rest, hagenda, hturn⟩ := step_next h
    · exact absurd (engineTurn_keeps_fault hturn hfault) hkept
    · cases turn with
      | engine => exact absurd (engineTurn_keeps_fault hturn hfault) hkept
      | host d =>
        obtain ⟨hrst, -⟩ | ⟨-, heffect⟩ := hostTurn_effect hturn
        · exact ⟨d, rest, hagenda, hrst⟩
        · exact absurd (heffect.keeps_fault hfault) hkept

/-! ## Who writes S -/

theorem engineTurn_writes_S {s t : State} (h : engineTurn s = .next t) (hS : t.S ≠ s.S) :
    s.phase = 1 ∨ s.phase = 2 ∨ s.phase = 3 := by
  obtain rfl | ⟨⟨-, -, hphase⟩, -⟩ := engineTurn_effect h
  · exact absurd rfl hS
  · exact hphase

theorem CommandEffect.writes_S {s t : State} (h : CommandEffect s t) (hS : t.S ≠ s.S) : s.phase = 0 ∨ s.phase = 4 := by
  cases h with
  | nothing => exact absurd rfl hS
  | raised cause hfault hcause => exact absurd rfl hS
  | began inp hready hin =>
    obtain ⟨-, -, hphase⟩ := hready
    exact hphase
  | released hfault hphase => exact .inr hphase

/-- Settles O46: the ENGINE writes S only where it is enabled, a command only where it begins or ends an invocation. -/
theorem agentsNeverShareS : Obligations.AgentsNeverShareS := by
  intro s t h hS
  refine ⟨?_, fun d rest hagenda hrst => ?_⟩
  · rintro (hagenda | ⟨rest, hagenda⟩)
    · exact engineTurn_writes_S (step_of_nil hagenda ▸ h) hS
    · exact engineTurn_writes_S (s := writeAgenda s rest) (step_of_engine hagenda ▸ h) hS
  · obtain ⟨hreset, -⟩ | ⟨-, heffect⟩ := hostTurn_effect (step_of_host hagenda ▸ h)
    · rw [hrst] at hreset
      cases hreset
    · exact heffect.writes_S hS

/-! ## The frame of a command -/

theorem CommandEffect.frame {s t : State} (h : CommandEffect s t) :
    t.cfg = s.cfg ∧ t.agenda = s.agenda ∧ (t.fault = s.fault → t.fcause = s.fcause) ∧
      (t.fault ≠ s.fault →
        t.S = s.S ∧ t.K = s.K ∧ t.phase = s.phase ∧ t.round = s.round ∧ t.step = s.step ∧ s.fault = false) := by
  cases h with
  | nothing => exact ⟨rfl, rfl, fun _ => rfl, fun hne => absurd rfl hne⟩
  | raised cause hfault hcause =>
    refine ⟨rfl, rfl, fun hsame => ?_, fun _ => ⟨rfl, rfl, rfl, rfl, rfl, hfault⟩⟩
    rw [hfault] at hsame
    cases hsame
  | began inp hready hin => exact ⟨rfl, rfl, fun _ => rfl, fun hne => absurd rfl hne⟩
  | released hfault hphase => exact ⟨rfl, rfl, fun _ => rfl, fun hne => absurd rfl hne⟩

/-- Settles O40: NONE answers the state itself, and START and ACK have the frame of a command. -/
theorem commandFrame : Obligations.CommandFrame := by
  intro s t i h
  refine ⟨?_, ?_⟩
  · rintro rfl
    exact onLegal_self_next h
  · rintro (rfl | ⟨inp, rfl⟩)
    · exact (execAck_effect h).frame
    · exact (execStart_effect h).frame

end Sys2Proof.Machine
end

section
/-! The scheduler's words, NEXT and AFTER (44_scheduler.md R161 to R164, R169). -/

namespace Sys2Proof.Machine

/-! ## AFTER -/

/-- Only the busy phases have rounds. -/
theorem phaseBusy_of_count_pos {c : Config} {p : Phase} (h : 0 < phaseCount c p) : phaseBusy p = true := by
  cases p with
  | idle => cases h
  | done => cases h
  | full1 => rfl
  | part => rfl
  | full2 => rfl

/-- AFTER is DONE or a later phase that has a round. -/
theorem afterPhase_cases (c : Config) (p : Phase) : afterPhase c p = .done ∨
    ((phaseCode p).toNat < (phaseCode (afterPhase c p)).toNat ∧ 0 < phaseCount c (afterPhase c p)) := by
  unfold afterPhase
  split
  · next q hq => exact .inr (by simpa using List.find?_some hq)
  · exact .inl rfl

theorem phaseCount_afterPhase_pos {c : Config} {p : Phase} (h : afterPhase c p ≠ .done) :
    0 < phaseCount c (afterPhase c p) := by
  obtain hdone | ⟨-, hcount⟩ := afterPhase_cases c p
  · exact absurd hdone h
  · exact hcount

theorem phaseCode_lt_afterPhase {c : Config} {p : Phase} (h : p ≠ .done) :
    (phaseCode p).toNat < (phaseCode (afterPhase c p)).toNat := by
  obtain hdone | ⟨hlater, -⟩ := afterPhase_cases c p
  · rw [hdone]
    revert h
    cases p <;> decide
  · exact hlater

/-- AFTER is not later than any later phase that has a round. -/
theorem afterPhase_le {c : Config} {p q : Phase} (hlater : (phaseCode p).toNat < (phaseCode q).toNat)
    (hcount : 0 < phaseCount c q) : (phaseCode (afterPhase c p)).toNat ≤ (phaseCode q).toNat := by
  have hmem : q ∈ [Phase.full1, .part, .full2] := by
    have hbusy := phaseBusy_of_count_pos hcount
    revert hbusy
    cases q <;> decide
  have hsorted : [Phase.full1, .part, .full2].Pairwise fun a b => (phaseCode a).toNat ≤ (phaseCode b).toNat := by
    decide
  unfold afterPhase
  split
  · next found hfound =>
    obtain ⟨-, before, after, hsplit, hbefore⟩ := List.find?_eq_some_iff_append.1 hfound
    rw [hsplit] at hmem hsorted
    obtain ⟨-, htail, -⟩ := List.pairwise_append.1 hsorted
    obtain hq | hq := List.mem_append.1 hmem
    · simpa [hlater, hcount] using hbefore q hq
    · obtain rfl | hq := List.mem_cons.1 hq
      · exact Nat.le_refl _
      · exact (List.pairwise_cons.1 htail).1 q hq
  · next hnone => simpa [hlater, hcount] using List.find?_eq_none.1 hnone q hmem

/-- The number of rounds of the phases before one (20_memory.md R57). -/
def roundsBefore (c : Config) : Phase → Nat
  | .idle => 0
  | .full1 => 0
  | .part => half c
  | .full2 => half c + c.rp
  | .done => c.rf + c.rp

theorem globalPosition_eq (c : Config) (p : Phase) (r : BitVec 11) (s : BitVec 2) :
    globalPosition c p r s = 4 * (roundsBefore c p + r.toNat) + s.toNat := by
  cases p <;> rfl

/-- The rounds of the phases that AFTER skips add nothing. -/
theorem roundsBefore_afterPhase {c : Config} (hc : c.WellFormed) {p : Phase} (hp : phaseBusy p = true) :
    roundsBefore c (afterPhase c p) = roundsBefore c p + phaseCount c p := by
  have hrf := rf_eq_half_add_half hc
  rw [afterPhase_eq]
  cases p with
  | full1 => grind [roundsBefore, phaseCount_full1]
  | part => grind [roundsBefore, phaseCount_part]
  | full2 => grind [roundsBefore, phaseCount_full2]
  | idle => cases hp
  | done => cases hp

/-! ## NEXT -/

/-- Within a phase ROUND counts up without overflow (00_scope.md R4(f)). -/
theorem toNat_round_succ {c : Config} (hc : c.WellFormed) {p : Phase} {r : BitVec 11}
    (h : r.toNat + 1 < phaseCount c p) : (r + 1).toNat = r.toNat + 1 := by
  have hcount := phaseCount_le hc p
  rw [BitVec.toNat_add, show (1 : BitVec 11).toNat = 1 from rfl, Nat.mod_eq_of_lt (by omega)]

/-- STEP counts up within a round. -/
theorem toNat_step_succ {st : BitVec 2} (h : st.toNat < 3) : (st + 1).toNat = st.toNat + 1 := by
  rw [BitVec.toNat_add, show (1 : BitVec 2).toNat = 1 from rfl, Nat.mod_eq_of_lt (by omega)]

/-- Settles O30: NEXT by its three cases, and AFTER as the first later phase that has a round. -/
theorem nextPosition : Obligations.NextPosition := by
  intro c p r s hc
  refine ⟨fun hs => ?_, fun hs hr => ?_, fun hs hr => ?_, phaseCode_lt_afterPhase, phaseCount_afterPhase_pos,
    fun q hlater hbefore => ?_⟩
  · rw [nextPc_within hs, BitVec.ofNat_add, BitVec.ofNat_toNat, BitVec.setWidth_eq]
    rfl
  · subst hs
    exact ⟨r + 1, nextPc_round (by decide) hr, toNat_round_succ hc hr⟩
  · subst hs
    exact nextPc_phase (by decide) (by omega)
  · by_contra hcount
    have hle := afterPhase_le (c := c) hlater (by omega)
    omega

/-- Settles O32: NEXT adds 1 to STEP, or 4 to the round's number in place of STEP = 3. -/
theorem positionAdvancesByOne : Obligations.PositionAdvancesByOne := by
  intro c p r s hc hp hr
  by_cases hs : s.toNat < 3
  · refine ⟨p, by rw [nextPc_within hs, phaseOf_phaseCode], ?_⟩
    rw [nextPc_within hs, globalPosition_eq, globalPosition_eq, toNat_step_succ hs]
    rfl
  · have hlast := s.isLt
    have hzero : (0 : BitVec 2).toNat = 0 ∧ (0 : BitVec 11).toNat = 0 := ⟨rfl, rfl⟩
    by_cases hround : r.toNat + 1 < phaseCount c p
    · refine ⟨p, by rw [nextPc_round hs hround, phaseOf_phaseCode], ?_⟩
      rw [nextPc_round hs hround, globalPosition_eq, globalPosition_eq, toNat_round_succ hc hround]
      dsimp only
      omega
    · refine ⟨afterPhase c p, by rw [nextPc_phase hs hround, phaseOf_phaseCode], ?_⟩
      rw [nextPc_phase hs hround, globalPosition_eq, globalPosition_eq, roundsBefore_afterPhase hc hp]
      dsimp only
      omega

/-! ## Empty phases -/

/-- Settles O31: AFTER by its cases; without rounds AFTER(IDLE) is DONE, where START then leaves the engine. -/
theorem emptyPhasesSkipped : Obligations.EmptyPhasesSkipped := by
  intro c hc
  have hrf := rf_eq_half_add_half hc
  refine ⟨fun p => phaseCount_afterPhase_pos, fun hrp hpos => ?_, fun hzero hpos => ?_,
    fun hzero hrp s inp hcfg hs hin => ?_⟩
  · have hhalf : 0 < half c := by omega
    refine ⟨?_, ?_, ?_⟩ <;> simp [afterPhase_eq, hhalf, hrp]
  · have hhalf : half c = 0 := by omega
    refine ⟨?_, ?_⟩ <;> simp [afterPhase_eq, hhalf, hpos]
  · subst hcfg
    have hhalf : half s.cfg = 0 := by omega
    have hdone : afterPhase s.cfg .idle = .done := by simp [afterPhase_eq, hhalf, hrp]
    exact ⟨started inp s, exec_start_of_ready hs hin, by rw [started, hdone]; rfl, List.map_map ..⟩

/-! ## The words emitted -/

/-- The word of a scheduled micro-operation. -/
theorem schedWord_of_encode {p : Phase} {r : BitVec 11} {st : BitVec 2} {w : CtlWord}
    (h : encode (sched p r st) = .cw w) : schedWord p r st = w := by
  rw [schedWord, h]

theorem emitted_of_waiting {s : State} (h : s.phase = 0 ∨ s.phase = 4) : s.emitted = some 0x0000 := by
  obtain ⟨p, hp, hwaiting⟩ := phaseOf_waiting h
  rw [emitted_of_phase (phaseOf_eq_some_iff.1 hp), schedWord_of_encode (w := 0x0000)]
  rw [sched_waiting hwaiting]
  rfl

/-- Settles O28: the word of the micro-operation SCHED names in each step. -/
theorem schedulerWords : Obligations.SchedulerWords := by
  intro s
  refine ⟨emitted_of_waiting, fun h => ?_⟩
  obtain ⟨p, hp, hbusy⟩ := phaseOf_busy h
  have hphase := phaseOf_eq_some_iff.1 hp
  rw [emitted_of_phase hphase]
  refine ⟨fun hstep => ?_, fun hstep => ?_, fun hstep => ?_, fun hstep => ?_⟩ <;> rw [hstep]
  · obtain ⟨-, hseg⟩ := lrcSegment_of_busy hbusy
    refine ⟨_, rfl, ?_⟩
    rw [schedWord_of_encode (by rw [sched_load hbusy]; rfl), cwOf_lrc_toNat, hseg, hphase]
  · rw [schedWord_of_encode (by rw [sched_add hbusy]; rfl)]
    rfl
  · rw [hphase]
    cases p with
    | full1 => rfl
    | part => rfl
    | full2 => rfl
    | idle => cases hbusy
    | done => cases hbusy
  · rw [schedWord_of_encode (by rw [sched_mix hbusy]; rfl)]
    rfl

/-- SCHED names an LRC only in a busy phase, with the window of its round. -/
theorem sched_eq_lrc {p : Phase} {r rnd : BitVec 11} {st seg : BitVec 2} (h : sched p r st = .lrc seg rnd) :
    phaseBusy p = true ∧ seg = (phaseCode p).setWidth 2 ∧ rnd = r := by
  cases hbusy : phaseBusy p with
  | false =>
    rw [sched_waiting hbusy] at h
    cases h
  | true =>
    obtain rfl | rfl | rfl | rfl := step_cases st
    · rw [sched_load hbusy] at h
      cases h
      exact ⟨rfl, rfl, rfl⟩
    · rw [sched_add hbusy] at h
      cases h
    · rw [sched_sbox hbusy] at h
      split at h <;> cases h
    · rw [sched_mix hbusy] at h
      cases h

/-- Settles O29: the invariant bounds ROUND, so the scheduled instruction is what the word decodes to. -/
theorem schedulerNeverReserved : Obligations.SchedulerNeverReserved := by
  intro s hs
  obtain ⟨p, hp⟩ := phaseOf_of_le hs.phaseLegal
  have hphase := phaseOf_eq_some_iff.1 hp
  have hdecode := decodeCw_schedWord s.step (hs.round_lt hphase)
  refine ⟨_, _, emitted_of_phase hphase, hdecode, wellFormed_of_decodeCw hdecode, fun seg rnd hlrc => ?_⟩
  obtain ⟨hbusy, rfl, rfl⟩ := sched_eq_lrc hlrc
  obtain ⟨-, hseg⟩ := lrcSegment_of_busy hbusy
  have hround := hs.round_lt hphase hbusy
  have hrange : 1 ≤ (phaseCode p).toNat ∧ (phaseCode p).toNat ≤ 3 := by
    revert hbusy
    cases p <;> decide
  rw [hphase]
  exact ⟨hrange.1, hrange.2, hseg, rfl, hround⟩

end Sys2Proof.Machine
end

section
/-! The invariant of 10_state.md R35: it holds at reset, and every turn of either agent keeps it. -/

namespace Sys2Proof.Machine

/-! ## At reset -/

theorem noLanes_eq_none {w : Nat} : ∀ r ∈ noLanes w, r = none := fun _ hr => List.eq_of_mem_replicate hr

@[simp] theorem noLanes_length (w : Nat) : (noLanes w).length = w := List.length_replicate

/-- An engine in IDLE without values meets the invariant, if FCAUSE is 0 exactly while FAULT is 0. -/
theorem inv_of_idle {s : State} (hS : s.S = noLanes s.cfg.w) (hK : s.K = noLanes s.cfg.w) (hphase : s.phase = 0)
    (hround : s.round = 0) (hstep : s.step = 0) (hcause : s.fault = false ↔ s.fcause = 0)
    (hlegal : s.fcause ≠ 3) : s.Inv where
  lanesS := by rw [hS, noLanes_length]
  lanesK := by rw [hK, noLanes_length]
  cause := hcause
  causeLegal := hlegal
  valuesS := by rw [hphase]; exact fun h => absurd h (by decide)
  window := by rw [hphase]; exact fun h => absurd h (by decide)
  atRest := fun _ => ⟨hround, hstep⟩
  idleEmpty := by rw [hS, hK]; exact fun _ => ⟨noLanes_eq_none, noLanes_eq_none⟩
  inRange := by rw [hphase]; exact fun h => absurd h (by decide)
  phaseLegal := by rw [hphase]; decide

theorem resetWith_inv (c : Config) (h : c.WellFormed) : (State.resetWith c h).Inv :=
  inv_of_idle rfl rfl rfl rfl rfl (iff_of_true rfl rfl) (by simp)

/-- Settles O49: the reset state is in IDLE without values. -/
theorem invariantAtReset : Obligations.InvariantAtReset :=
  ⟨resetWith_inv, resetWith_inv _ _, Config.hardware_wellFormed⟩

/-! ## The ENGINE's turn -/

/-- A K file holds the window of round r of a segment (10_state.md R35(b)). -/
def HoldsWindow (c : Config) (seg r : Nat) (K : List Reg) : Prop :=
  ∀ i < c.w, ∃ v, K[i]? = some (some v) ∧ v < c.p ∧ c.rc[segBase c seg + r * c.w + i]? = some v

theorem windowWords_holdsWindow {c : Config} (hc : c.WellFormed) {seg r : Nat} (hr : r < segCount c seg) :
    HoldsWindow c seg r ((windowWords c seg r).map some) := by
  intro i hi
  obtain ⟨-, hcanonical, -, -⟩ := (Memory.wf_iff c).1 hc.tables
  have hlen : i < (windowWords c seg r).length := (windowWords_length hc hr).symm ▸ hi
  have hword := windowWords_getElem? c seg r hi
  rw [List.getElem?_eq_getElem hlen] at hword
  refine ⟨(windowWords c seg r)[i], by simp [hlen], hcanonical _ (List.mem_of_getElem? hword.symm), hword.symm⟩

theorem canonicalLanes_map_some {c : Config} {vs : List Nat} (h : ∀ v ∈ vs, v < c.p) :
    CanonicalLanes c (vs.map some) := by
  intro r hr
  obtain ⟨v, hv, rfl⟩ := List.mem_map.1 hr
  exact ⟨v, rfl, h v hv⟩

/-- What the invariant says inside an invocation, whatever the position. -/
structure State.HoldsValues (s : State) : Prop where
  lanesS : s.S.length = s.cfg.w
  lanesK : s.K.length = s.cfg.w
  cause : s.fault = false ↔ s.fcause = 0
  causeLegal : s.fcause ≠ 3
  valuesS : CanonicalLanes s.cfg s.S

theorem inv_of_busy {s : State} {p : Phase} (hs : s.HoldsValues) (hp : s.phase = phaseCode p)
    (hbusy : phaseBusy p = true) (hround : s.round.toNat < phaseCount s.cfg p)
    (hwindow : s.step ≠ 0 → HoldsWindow s.cfg (phaseCode p).toNat s.round.toNat s.K) : s.Inv where
  lanesS := hs.lanesS
  lanesK := hs.lanesK
  cause := hs.cause
  causeLegal := hs.causeLegal
  valuesS := fun _ => hs.valuesS
  window := fun _ => hp ▸ hwindow
  atRest := by
    have hwaiting : phaseBusy p ≠ false := by rw [hbusy]; decide
    exact fun h => absurd ((phaseBusy_eq_false_iff p).2 (hp ▸ h)) hwaiting
  idleEmpty := fun h => by
    rw [hp] at h
    cases p <;> cases hbusy <;> cases h
  inRange := fun _ => hp ▸ hround
  phaseLegal := by rw [hp]; cases p <;> decide

theorem inv_of_done {s : State} (hs : s.HoldsValues) (hp : s.phase = phaseCode .done) (hround : s.round = 0)
    (hstep : s.step = 0) : s.Inv where
  lanesS := hs.lanesS
  lanesK := hs.lanesK
  cause := hs.cause
  causeLegal := hs.causeLegal
  valuesS := fun _ => hs.valuesS
  window := by rw [hp]; exact fun h => absurd h (by decide)
  atRest := fun _ => ⟨hround, hstep⟩
  idleEmpty := by rw [hp]; exact fun h => absurd h (by decide)
  inRange := by rw [hp]; exact fun h => absurd h (by decide)
  phaseLegal := by rw [hp]; decide

/-- An engine that has just entered the phase AFTER another. -/
theorem inv_of_entered {s : State} {p : Phase} (hs : s.HoldsValues) (hp : s.phase = phaseCode (afterPhase s.cfg p))
    (hround : s.round = 0) (hstep : s.step = 0) : s.Inv := by
  obtain hdone | ⟨-, hcount⟩ := afterPhase_cases s.cfg p
  · exact inv_of_done hs (hdone ▸ hp) hround hstep
  · exact inv_of_busy hs hp (phaseBusy_of_count_pos hcount) (by rw [hround]; exact hcount) fun h => absurd hstep h

/-- NEXT keeps the invariant, if the micro-operation has left values in S and, before the last step of the round, the
window in K. -/
theorem advance_inv {s : State} {p : Phase} (hs : s.HoldsValues) (hbusy : phaseBusy p = true)
    (hround : s.round.toNat < phaseCount s.cfg p)
    (hwindow : s.step.toNat < 3 → HoldsWindow s.cfg (phaseCode p).toNat s.round.toNat s.K) :
    (advance p s).Inv := by
  have hvalues (pc : Pc) : (writePc s pc).HoldsValues :=
    ⟨hs.lanesS, hs.lanesK, hs.cause, hs.causeLegal, hs.valuesS⟩
  rw [advance]
  by_cases hstep : s.step.toNat < 3
  · rw [nextPc_within hstep]
    exact inv_of_busy (hvalues _) rfl hbusy hround fun _ => hwindow hstep
  · by_cases hlast : s.round.toNat + 1 < phaseCount s.cfg p
    · rw [nextPc_round hstep hlast]
      exact inv_of_busy (hvalues _) rfl hbusy ((toNat_round_succ s.wf hlast).symm ▸ hlast) fun h => absurd rfl h
    · rw [nextPc_phase hstep hlast]
      exact inv_of_entered (hvalues _) rfl rfl rfl

theorem State.HoldsValues.writeK {s : State} {ks : List Nat} (hs : s.HoldsValues) (hks : ks.length = s.cfg.w) :
    (writeK s ks).HoldsValues :=
  ⟨hs.lanesS, (List.length_map _).trans hks, hs.cause, hs.causeLegal, hs.valuesS⟩

theorem State.HoldsValues.writeS {s : State} {vs : List Nat} (hs : s.HoldsValues) (hvs : vs.length = s.cfg.w)
    (hlt : ∀ v ∈ vs, v < s.cfg.p) : (writeS s vs).HoldsValues :=
  ⟨(List.length_map _).trans hvs, hs.lanesK, hs.cause, hs.causeLegal, canonicalLanes_map_some hlt⟩

/-- Inside an invocation S holds field elements (10_state.md R35(a)). -/
theorem State.Inv.exists_canonicalS {s : State} (hs : s.Inv) (hphase : 1 ≤ s.phase.toNat) :
    ∃ vs : List Nat, vs.length = s.cfg.w ∧ s.S = vs.map some ∧ ∀ v ∈ vs, v < s.cfg.p := by
  obtain ⟨vs, hvs, hS⟩ := hs.exists_valuesS hphase
  refine ⟨vs, hvs, hS, fun v hv => ?_⟩
  obtain ⟨u, hu, hlt⟩ := hs.valuesS hphase (some v) (hS ▸ List.mem_map_of_mem hv)
  cases hu
  exact hlt

theorem zipWith_fadd_lt {p : Nat} (hp : 0 < p) (vs ks : List Nat) : ∀ v ∈ List.zipWith (fadd p) vs ks, v < p := by
  intro v hv
  obtain ⟨i, hi, rfl⟩ := List.getElem_of_mem hv
  rw [List.getElem_zipWith]
  exact fadd_lt hp _ _

theorem sboxLayer_lt {c : Config} (hc : c.WellFormed) (p : Phase) {vs : List Nat} (hvs : ∀ v ∈ vs, v < c.p) :
    ∀ v ∈ sboxLayer c p vs, v < c.p := by
  rw [sboxLayer]
  split
  · cases vs with
    | nil => exact hvs
    | cons x rest =>
      obtain ⟨-, hrest⟩ := List.forall_mem_cons.1 hvs
      exact List.forall_mem_cons.2 ⟨sboxMap_lt hc x, hrest⟩
  · exact List.forall_mem_map.2 fun x _ => sboxMap_lt hc x

theorem mixLayer_lt {c : Config} (hc : c.WellFormed) (vs : List Nat) : ∀ v ∈ mixLayer c vs, v < c.p :=
  List.forall_mem_map.2 fun row _ => fdot_lt hc.pos row vs

/-- The S-box step of a busy phase completes where S holds values, and applies the S-box layer of its phase. -/
theorem exec_sched_sbox {s : State} {p : Phase} {vs : List Nat} (hs : s.EngineEnabled) (hbusy : phaseBusy p = true)
    (hvs : vs.length = s.cfg.w) (hS : s.S = vs.map some) :
    exec (sched p s.round 2) s = .next (writePc (writeS s (sboxLayer s.cfg p vs)) s.nextPos) := by
  rw [sched_sbox hbusy, sboxLayer]
  split
  · obtain ⟨v, rest, rfl⟩ := List.exists_cons_of_length_pos (hvs ▸ s.wf.width)
    rw [exec_sbp, execSbp_eq (v := v) hs (by rw [hS]; rfl), writeLane0, hS]
    rfl
  · exact execSbf_eq hs hvs hS

/-- The scheduled micro-operation of a busy phase keeps the invariant. -/
theorem exec_sched_inv {s t : State} {p : Phase} (hs : s.Inv) (hp : s.phase = phaseCode p)
    (hbusy : phaseBusy p = true) (hfault : s.fault = false) (h : exec (sched p s.round s.step) s = .next t) :
    t.Inv := by
  have hphase : s.phase = 1 ∨ s.phase = 2 ∨ s.phase = 3 := hp ▸ (phaseBusy_iff p).1 hbusy
  have henabled : s.EngineEnabled := ⟨hfault, hs.causeLegal, hphase⟩
  have hround := hs.round_lt hp hbusy
  have hpos : 1 ≤ s.phase.toNat := by obtain h | h | h := hphase <;> rw [h] <;> decide
  have hvalues : s.HoldsValues := ⟨hs.lanesS, hs.lanesK, hs.cause, hs.causeLegal, hs.valuesS hpos⟩
  have hwindow : s.step ≠ 0 → HoldsWindow s.cfg (phaseCode p).toNat s.round.toNat s.K := hp ▸ hs.window hphase
  obtain ⟨vs, hvs, hS, hlt⟩ := hs.exists_canonicalS hpos
  obtain hstep | hstep | hstep | hstep := step_cases s.step <;> rw [hstep] at h
  · obtain ⟨hseg, hsegNat⟩ := lrcSegment_of_busy hbusy
    rw [sched_load hbusy, exec_lrc, execLrc_eq henabled hseg (hsegNat ▸ hround), hsegNat, nextPos_eq hp] at h
    cases h
    exact advance_inv (hvalues.writeK (windowWords_length s.wf hround)) hbusy hround fun _ =>
      windowWords_holdsWindow s.wf hround
  · obtain ⟨ks, hks, hK⟩ := hs.exists_valuesK hphase (hstep ▸ by decide)
    rw [sched_add hbusy, exec_arc, execArc_eq henabled hvs hks hS hK, nextPos_eq hp] at h
    cases h
    exact advance_inv (hvalues.writeS (by simp [hvs, hks]) (zipWith_fadd_lt s.wf.pos vs ks)) hbusy hround fun _ =>
      hwindow (hstep ▸ by decide)
  · rw [exec_sched_sbox henabled hbusy hvs hS, nextPos_eq hp] at h
    cases h
    exact advance_inv (hvalues.writeS ((sboxLayer_length _ p vs).trans hvs) (sboxLayer_lt s.wf p hlt)) hbusy hround
      fun _ => hwindow (hstep ▸ by decide)
  · rw [sched_mix hbusy, exec_mds, execMds_eq henabled hvs hS, nextPos_eq hp] at h
    cases h
    refine advance_inv (hvalues.writeS (mixLayer_length s.wf vs) (mixLayer_lt s.wf vs)) hbusy hround fun hlast => ?_
    rw [writeS_step, hstep] at hlast
    exact absurd hlast (by decide)

theorem engineTurn_inv {s t : State} (hs : s.Inv) (h : engineTurn s = .next t) : t.Inv := by
  obtain ⟨-, rfl⟩ | ⟨hfault, p, hp, hexec⟩ := engineTurn_next_sched h
  · exact hs
  · cases hbusy : phaseBusy p with
    | false =>
      rw [sched_waiting hbusy] at hexec
      rwa [onLegal_self_next hexec]
    | true => exact exec_sched_inv hs hp hbusy hfault hexec

/-! ## HOST's turn -/

/-- The two causes are codes other than "no fault" and the reserved one (10_state.md R29). -/
theorem cause_codes {cause : BitVec 2} (h : cause = badCmd ∨ cause = nonCanonIn) : cause ≠ 0 ∧ cause ≠ 3 := by
  obtain rfl | rfl := h <;> decide

/-- Raising FAULT writes no register that the clauses of R35 speak of (60_exceptions.md R214). -/
theorem State.Inv.raised {s : State} {cause : BitVec 2} (hs : s.Inv) (hcause : cause = badCmd ∨ cause = nonCanonIn) :
    State.Inv { s with fault := true, fcause := cause } where
  lanesS := hs.lanesS
  lanesK := hs.lanesK
  cause := iff_of_false nofun (cause_codes hcause).1
  causeLegal := (cause_codes hcause).2
  valuesS := hs.valuesS
  window := hs.window
  atRest := hs.atRest
  idleEmpty := hs.idleEmpty
  inRange := hs.inRange
  phaseLegal := hs.phaseLegal

theorem started_inv {s : State} {inp : List Lane} (hs : s.Inv) (hin : AcceptedInput s.cfg inp) :
    (started inp s).Inv := by
  obtain ⟨hlen, hlt⟩ := hin
  refine inv_of_entered ⟨?_, noLanes_length _, hs.cause, hs.causeLegal, ?_⟩ rfl rfl rfl
  · exact (List.length_map _).trans ((List.length_map _).trans hlen)
  · exact canonicalLanes_map_some (List.forall_mem_map.2 hlt)

theorem CommandEffect.inv {s t : State} (h : CommandEffect s t) (hs : s.Inv) : t.Inv := by
  cases h with
  | nothing => exact hs
  | raised cause hfault hcause => exact hs.raised hcause
  | began inp hready hin => exact started_inv hs hin
  | released hfault hphase => exact inv_of_idle rfl rfl rfl rfl rfl hs.cause hs.causeLegal

theorem hostTurn_inv {s t : State} {d : PortDrive} (hs : s.Inv) (h : hostTurn d s = .next t) : t.Inv := by
  obtain ⟨-, rfl⟩ | ⟨-, heffect⟩ := hostTurn_effect h
  · exact (resetWith_inv s.cfg s.wf).writeAgenda s.agenda
  · exact heffect.inv hs

/-- Settles O50: the ENGINE's turn by the step of the round, HOST's by the effect of its command. -/
theorem invariantKept : Obligations.InvariantKept := by
  intro s t hs h
  refine ⟨?_, step_cfg h⟩
  obtain ⟨-, hturn⟩ | ⟨turn, rest, -, hturn⟩ := step_next h
  · exact engineTurn_inv hs hturn
  · cases turn with
    | engine => exact engineTurn_inv (hs.writeAgenda rest) hturn
    | host d => exact hostTurn_inv (hs.writeAgenda rest) hturn

end Sys2Proof.Machine
end

section
/-! What each command and each turn answers, case by case: halted, refused, faulted or executed (44_scheduler.md R165 to
R174; 60_exceptions.md R214 to R219). -/

namespace Sys2Proof.Machine

/-! ## Halted: FAULT = 1 -/

theorem exists_phase {s : State} (hs : s.CodesLegal) : ∃ p, s.phase = phaseCode p := by
  obtain ⟨hphase, -⟩ := hs
  obtain ⟨p, hp⟩ := phaseOf_of_le hphase
  exact ⟨p, phaseOf_eq_some_iff.1 hp⟩

theorem onLegal_self {s : State} (hs : s.CodesLegal) : onLegal s (fun _ => .next s) = .next s := by
  obtain ⟨p, hp⟩ := exists_phase hs
  exact onLegal_eq hp hs.2 _

theorem onEngine_of_fault {s : State} (hs : s.CodesLegal) (hfault : s.fault = true) (k : Phase → Out) :
    onEngine s k = .next s := by
  simp only [onEngine, hfault, if_true, onLegal_self hs]

theorem onCommand_of_fault {s : State} (hs : s.CodesLegal) (hfault : s.fault = true) (k : Phase → Out) :
    onCommand s k = .next s := by
  simp only [onCommand, hfault, if_true, onLegal_self hs]

/-- With FAULT = 1 no instruction changes anything (60_exceptions.md R218). -/
theorem exec_of_fault {s : State} (hs : s.CodesLegal) (hfault : s.fault = true) (i : Instr) : exec i s = .next s := by
  cases i with
  | nop => exact onLegal_self hs
  | noCommand => exact onLegal_self hs
  | lrc seg rnd => exact onEngine_of_fault hs hfault _
  | arc => exact onEngine_of_fault hs hfault _
  | sbf => exact onEngine_of_fault hs hfault _
  | sbp => exact onEngine_of_fault hs hfault _
  | mds => exact onEngine_of_fault hs hfault _
  | start inp => exact onCommand_of_fault hs hfault _
  | ack => exact onCommand_of_fault hs hfault _

theorem engineTurn_of_fault {s : State} (hs : s.CodesLegal) (hfault : s.fault = true) : engineTurn s = .next s :=
  onCommand_of_fault hs hfault _

theorem hostTurn_of_fault {s : State} {d : PortDrive} (hs : s.CodesLegal) (hfault : s.fault = true)
    (hrst : d.rst = false) : hostTurn d s = .next s := by
  cases hdecode : decodeCmd d.cmd d.inp with
  | ok i => exact (hostTurn_of_command hrst hdecode).trans (exec_of_fault hs hfault i)
  | error why => exact (hostTurn_of_reserved hrst hdecode).trans (onCommand_of_fault hs hfault _)

/-! ## The host's view -/

/-- The STATUS word of its fields (30_encoding.md R93). -/
def statusOf (cause : BitVec 2) (fault done busy : Bool) : BitVec 8 :=
  0#3 ++ cause ++ BitVec.ofBool fault ++ BitVec.ofBool done ++ BitVec.ofBool busy

theorem statusWord_eq (s : State) : statusWord s = statusOf s.fcause s.fault (doneFlag s) (busyFlag s) := rfl

/-- The fields of STATUS lie where R93 puts them. -/
theorem statusOf_fields : ∀ (cause : BitVec 2) (fault done busy : Bool),
    (statusOf cause fault done busy).extractLsb' 0 1 = BitVec.ofBool busy ∧
    (statusOf cause fault done busy).extractLsb' 1 1 = BitVec.ofBool done ∧
    (statusOf cause fault done busy).extractLsb' 2 1 = BitVec.ofBool fault ∧
    (statusOf cause fault done busy).extractLsb' 3 2 = cause ∧
    (statusOf cause fault done busy).extractLsb' 5 3 = 0 := by
  decide

theorem ofBool_eq_ite (b : Bool) : BitVec.ofBool b = if b then 1 else 0 := by cases b <;> rfl

theorem busyFlag_iff (s : State) : busyFlag s = true ↔ (s.phase = 1 ∨ s.phase = 2 ∨ s.phase = 3) := by
  simp [busyFlag, or_assoc]

theorem doneFlag_iff (s : State) : doneFlag s = true ↔ s.phase = 4 := beq_iff_eq

/-- The flags by phase (10_state.md R31). -/
theorem flags_of_phase {s : State} {p : Phase} (hp : s.phase = phaseCode p) :
    busyFlag s = phaseBusy p ∧ doneFlag s = decide (p = .done) := by
  rw [busyFlag, doneFlag, hp]
  cases p <;> decide

/-- Settles O47: the fields of STATUS and the flags by phase. -/
theorem statusBits : Obligations.StatusBits := by
  intro s
  obtain ⟨hbusy, hdone, hfault, hcause, hzero⟩ := statusOf_fields s.fcause s.fault (doneFlag s) (busyFlag s)
  refine ⟨?_, ?_, hfault.trans (ofBool_eq_ite _), hcause, hzero, ?_, fun hclear hnone hlegal => ?_⟩
  · rw [statusWord_eq, hbusy, ofBool_eq_ite]
    simp only [busyFlag_iff]
  · rw [statusWord_eq, hdone, ofBool_eq_ite]
    simp only [doneFlag_iff]
  · rw [busyFlag_iff, doneFlag_iff]
    rintro ⟨h, hphase⟩
    rw [hphase] at h
    revert h
    decide
  · obtain ⟨p, hp⟩ := exists_phase hlegal
    obtain ⟨hbusy, hdone⟩ := flags_of_phase hp
    rw [statusWord_eq, hclear, hnone, hbusy, hdone, hp]
    cases p <;> decide

/-- OUT has no value outside DONE and with FAULT = 1 (10_state.md R33). -/
theorem readOut_refused {s : State} (h : s.phase ≠ 4 ∨ s.fault = true) : readOut s = .refused .outNoValue := by
  refine if_neg ?_
  rw [Bool.and_eq_true, doneFlag_iff, Bool.not_eq_true']
  rintro ⟨hphase, hfault⟩
  obtain h | h := h
  · exact h hphase
  · rw [hfault] at h
    cases h

/-- Settles O48: OUT is refused unless the engine is in DONE without a fault, and then shows the values of S. -/
theorem outOnlyInDone : Obligations.OutOnlyInDone :=
  ⟨fun _ h => readOut_refused h, fun _ _ hphase hfault hlen hS => readOut_of_done hphase hfault hlen hS⟩

/-- Settles O43: every instruction and every turn but a reset halts, and OUT and STATUS show the fault. -/
theorem faultHaltsUntilReset : Obligations.FaultHaltsUntilReset := by
  intro s hs hfault
  obtain ⟨-, -, hbit, hcause, -⟩ := statusOf_fields s.fcause s.fault (doneFlag s) (busyFlag s)
  have hs' (rest : List Turn) : (writeAgenda s rest).CodesLegal := hs
  refine ⟨exec_of_fault hs hfault, fun hagenda => ?_, fun rest hagenda => ?_, fun d rest hagenda hrst => ?_,
    fun d rest hagenda hrst => ?_, readOut_refused (.inr hfault), ?_, hcause⟩
  · exact (step_of_nil hagenda).trans (engineTurn_of_fault hs hfault)
  · exact (step_of_engine hagenda).trans (engineTurn_of_fault (hs' rest) hfault)
  · exact (step_of_host hagenda).trans (hostTurn_of_fault (hs' rest) hfault hrst)
  · exact ⟨_, (step_of_host hagenda).trans (hostTurn_of_reset hrst), rfl, rfl⟩
  · rw [statusWord_eq, hbit, hfault]
    rfl

/-! ## Refused and faulted instructions -/

theorem onLegal_of_reserved {s : State} (h : 5 ≤ s.phase.toNat) (k : Phase → Out) :
    onLegal s k = .refused .reservedPhase := by
  have hnone : phaseOf s.phase = none := by
    revert h
    generalize s.phase = code
    revert code
    decide
  rw [onLegal, hnone]

/-- A state with a reserved PHASE code is refused by every instruction (10_state.md R27). -/
theorem exec_of_reserved {s : State} (h : 5 ≤ s.phase.toNat) (i : Instr) : exec i s = .refused .reservedPhase := by
  cases i <;> exact onLegal_of_reserved h _

theorem hostTurn_of_reservedPhase {s : State} {d : PortDrive} (h : 5 ≤ s.phase.toNat) (hrst : d.rst = false) :
    hostTurn d s = .refused .reservedPhase := by
  cases hdecode : decodeCmd d.cmd d.inp with
  | ok i => exact (hostTurn_of_command hrst hdecode).trans (exec_of_reserved h i)
  | error why => exact (hostTurn_of_reserved hrst hdecode).trans (onLegal_of_reserved h _)

/-- Settles O27: every instruction and every turn but a reset begins with the test of the codes. -/
theorem reservedPhaseRefused : Obligations.ReservedPhaseRefused := by
  refine fun s hs => ⟨exec_of_reserved hs, fun hreset => ?_⟩
  match hagenda : s.agenda with
  | [] => exact (step_of_nil hagenda).trans (onLegal_of_reserved hs _)
  | .engine :: rest => exact (step_of_engine hagenda).trans (onLegal_of_reserved (s := writeAgenda s rest) hs _)
  | .host d :: rest =>
    exact (step_of_host hagenda).trans
      (hostTurn_of_reservedPhase (s := writeAgenda s rest) hs (hreset d rest hagenda))

/-- Settles O26: LRC tests SEG, then RND against the count of its segment. -/
theorem reservedLrcRefused : Obligations.ReservedLrcRefused := by
  refine fun s seg rnd hs => ⟨fun hseg => ?_, fun hseg hrnd => ?_⟩ <;>
    obtain ⟨p, -, -, hrun⟩ := onEngine_eq hs _ <;> refine hrun.trans ?_
  · exact if_pos hseg
  · rw [if_neg hseg, if_neg (Nat.not_lt.2 hrnd)]

theorem withLanes_of_noValue {s : State} {regs : List Reg} {i : Nat} (hi : i < s.cfg.w) (h : laneOf regs i = none)
    (k : List Nat → Out) : withLanes s regs k = .fault .readNoValue := by
  rw [withLanes, readLanes_eq_none hi h]

/-- A micro-operation whose body faults in every phase faults on an enabled engine. -/
theorem onEngine_of_fault_body {s : State} {k : Phase → Out} (hs : s.EngineEnabled)
    (hk : ∀ p, k p = .fault .readNoValue) : onEngine s k = .fault .readNoValue := by
  obtain ⟨p, -, -, hrun⟩ := onEngine_eq hs k
  exact hrun.trans (hk p)

theorem execArc_of_noKey {s : State} {k : Nat} (hs : s.EngineEnabled) (hk : k < s.cfg.w) (h : laneOf s.K k = none) :
    execArc s = .fault .readNoValue := by
  refine onEngine_of_fault_body hs fun p => ?_
  rw [withLanes]
  split
  · exact withLanes_of_noValue hk h _
  · rfl

/-- Settles O25: the read of the lane without a value is what faults, in every micro-operation that reads and in OUT. -/
theorem readOfNoValueFaults : Obligations.ReadOfNoValueFaults := by
  refine ⟨fun s k hs hk h => ⟨?_, ?_, ?_⟩, fun s hs h => ?_, fun s k hs hk h => execArc_of_noKey hs hk h,
    fun s k hphase hfault hk h => ?_⟩
  · exact onEngine_of_fault_body hs fun p => withLanes_of_noValue hk h _
  · exact onEngine_of_fault_body hs fun p => withLanes_of_noValue hk h _
  · exact onEngine_of_fault_body hs fun p => withLanes_of_noValue hk h _
  · refine onEngine_of_fault_body hs fun p => ?_
    rw [h]
  · rw [readOut, (doneFlag_iff s).2 hphase, hfault, readLanes_eq_none hk h]
    rfl

/-! ## The commands by phase -/

/-- START while busy is BAD_CMD, whatever its operand (60_exceptions.md R215). -/
theorem exec_start_of_busy {s : State} (inp : List Lane) (hs : s.EngineEnabled) :
    exec (.start inp) s = .next { s with fault := true, fcause := 1 } := by
  obtain ⟨hfault, hcause, hphase⟩ := hs
  obtain ⟨p, hp, hbusy⟩ := phaseOf_busy hphase
  rw [exec_start, execStart, onCommand_eq (phaseOf_eq_some_iff.1 hp) hcause hfault, if_pos hbusy,
    raiseFault_of_clear hfault]
  rfl

/-- START with a lane >= P on a ready engine is NONCANON_IN (60_exceptions.md R216). -/
theorem exec_start_of_nonCanonical {s : State} {inp : List Lane} (hs : s.Ready) (hlen : inp.length = s.cfg.w)
    (hbad : ∃ v ∈ inp, s.cfg.p ≤ v.toNat) : exec (.start inp) s = .next { s with fault := true, fcause := 2 } := by
  obtain ⟨hfault, hcause, hphase⟩ := hs
  obtain ⟨p, hp, hwaiting⟩ := phaseOf_waiting hphase
  have hany : anyNonCanonical s.cfg inp = true := by simpa [anyNonCanonical] using hbad
  have hbusy : ¬ phaseBusy p = true := by rw [hwaiting]; decide
  rw [exec_start, execStart, onCommand_eq (phaseOf_eq_some_iff.1 hp) hcause hfault, if_neg hbusy,
    if_neg (not_not.2 hlen), if_pos hany, raiseFault_of_clear hfault]
  rfl

/-- ACK outside DONE is BAD_CMD (60_exceptions.md R215). -/
theorem exec_ack_of_not_done {s : State} (hs : s.CodesLegal) (hfault : s.fault = false) (hphase : s.phase ≠ 4) :
    exec .ack s = .next { s with fault := true, fcause := 1 } := by
  obtain ⟨p, hp⟩ := exists_phase hs
  have hdone : p ≠ .done := by
    rintro rfl
    exact hphase hp
  refine (onCommand_eq hp hs.2 hfault _).trans ?_
  rw [if_neg hdone, raiseFault_of_clear hfault]
  rfl

/-- The reserved command code is BAD_CMD (60_exceptions.md R215). -/
theorem hostTurn_of_code3 {s : State} {d : PortDrive} (hs : s.CodesLegal) (hfault : s.fault = false)
    (hrst : d.rst = false) (hcmd : d.cmd = 3) : hostTurn d s = .next { s with fault := true, fcause := 1 } := by
  obtain ⟨p, hp⟩ := exists_phase hs
  have hdecode : decodeCmd d.cmd d.inp = .error .command := by rw [hcmd]; rfl
  rw [hostTurn_of_reserved hrst hdecode, onCommand_eq hp hs.2 hfault, raiseFault_of_clear hfault]
  rfl

/-- The state an accepted START leaves, register by register (44_scheduler.md R170). -/
theorem started_registers (inp : List Lane) (s : State) : started inp s =
    { s with
      S := inp.map fun v => some v.toNat
      K := List.replicate s.cfg.w none
      phase := if 0 < half s.cfg then 1 else if 0 < s.cfg.rp then 2 else 4
      round := 0
      step := 0 } := by
  refine State.eq_of_fields_eq rfl (List.map_map ..) rfl ?_ rfl rfl rfl rfl rfl
  rw [started, writePc_phase, afterPhase_eq]
  dsimp only
  split_ifs <;> rfl

/-- START begins in a busy phase if there is a round. -/
theorem afterPhase_idle_busy {c : Config} (h : 0 < half c + c.rp) : phaseBusy (afterPhase c .idle) = true := by
  rw [afterPhase_eq]
  dsimp only
  split_ifs with hfull hpart
  · rfl
  · rfl
  · omega

theorem ne_done_of_busy {p : Phase} (hp : phaseBusy p = true) : p ≠ .done := by
  rintro rfl
  cases hp

/-- Settles O38: one case of START per clause. -/
theorem startBeginsInvocation : Obligations.StartBeginsInvocation := by
  intro s inp hs hlen
  refine ⟨fun hfault => exec_of_fault hs hfault _, fun hfault hphase => exec_start_of_busy inp ⟨hfault, hs.2, hphase⟩,
    fun hfault hphase hbad => exec_start_of_nonCanonical ⟨hfault, hs.2, hphase⟩ hlen hbad,
    fun hfault hphase hgood => ?_⟩
  refine ⟨started inp s, exec_start_of_ready ⟨hfault, hs.2, hphase⟩ ⟨hlen, hgood⟩, started_registers inp s,
    fun hrounds => ?_⟩
  obtain ⟨hbusy, hdone⟩ := flags_of_phase (s := started inp s) rfl
  have hbegun := afterPhase_idle_busy hrounds
  exact ⟨hbusy.trans hbegun, hdone.trans (decide_eq_false (ne_done_of_busy hbegun))⟩

/-- Settles O39: halted, released or rejected. -/
theorem ackReleasesResult : Obligations.AckReleasesResult :=
  fun _ hs => ⟨fun hfault => exec_of_fault hs hfault _,
    fun hfault hphase => ⟨_, exec_ack_of_done hphase hs.2 hfault, rfl, rfl⟩, exec_ack_of_not_done hs⟩

/-- Settles O41: the three causes. -/
theorem badCommandFaults : Obligations.BadCommandFaults := by
  refine ⟨fun _ inp hs => exec_start_of_busy inp hs, fun _ hs => exec_ack_of_not_done hs,
    fun s d rest hs hfault hagenda hrst hcmd => ?_⟩
  exact (step_of_host hagenda).trans (hostTurn_of_code3 (s := writeAgenda s rest) hs hfault hrst hcmd)

/-- Settles O42: the operand's offending lane is one of its W. -/
theorem nonCanonicalStartFaults : Obligations.NonCanonicalStartFaults :=
  fun _ _ v hs hlen hv hle => exec_start_of_nonCanonical hs hlen ⟨v, hv, hle⟩

/-! ## The turns as instructions -/

/-- The ENGINE's turn on an emitted word that decodes is the execution of its instruction. -/
theorem engineTurn_of_emitted {s : State} {w : CtlWord} {i : Instr} (hs : s.CodesLegal) (hfault : s.fault = false)
    (hemitted : s.emitted = some w) (hdecode : decodeCw s.cfg w = .ok i) : engineTurn s = exec i s := by
  obtain ⟨p, hp⟩ := exists_phase hs
  rw [emitted_of_phase hp] at hemitted
  cases hemitted
  exact engineTurn_of_decode hp hs.2 hfault hdecode

/-- Settles O35: the step is the ENGINE's turn, on the state without the turn it takes. -/
theorem stepRunsEmittedWord : Obligations.StepRunsEmittedWord := by
  refine fun s w i hs hfault hemitted hdecode => ⟨fun hagenda => ?_, fun rest hagenda => ?_⟩
  · exact (step_of_nil hagenda).trans (engineTurn_of_emitted hs hfault hemitted hdecode)
  · exact (step_of_engine hagenda).trans (engineTurn_of_emitted (s := writeAgenda s rest) hs hfault hemitted hdecode)

/-- Settles O36: the step is HOST's turn, which executes the decoded command. -/
theorem stepRunsCommand : Obligations.StepRunsCommand :=
  fun _ _ _ _ hagenda hrst hdecode => (step_of_host hagenda).trans (hostTurn_of_command hrst hdecode)

/-- Settles O37: NONE answers the state itself, and code 0 decodes to it. -/
theorem noneChangesNothing : Obligations.NoneChangesNothing := by
  refine ⟨fun _ hs => onLegal_self hs, fun s d rest hs hagenda hrst hcmd => ?_⟩
  have hdecode : decodeCmd d.cmd d.inp = .ok .noCommand := by rw [hcmd]; rfl
  exact (stepRunsCommand s d rest _ hagenda hrst hdecode).trans (onLegal_self (s := writeAgenda s rest) hs)

/-- In IDLE and DONE the ENGINE's turn executes NOP, or is halted; either changes nothing. -/
theorem engineTurn_of_waiting {s : State} (hs : s.CodesLegal) (hphase : s.phase = 0 ∨ s.phase = 4) :
    engineTurn s = .next s := by
  cases hfault : s.fault with
  | true => exact engineTurn_of_fault hs hfault
  | false =>
    exact (engineTurn_of_emitted hs hfault (emitted_of_waiting hphase) rfl).trans (onLegal_self hs)

/-- Settles O23: NOP answers the state itself, and is what the ENGINE executes in IDLE and DONE. -/
theorem nopChangesNothing : Obligations.NopChangesNothing :=
  ⟨fun _ hs => onLegal_self hs, fun _ => emitted_of_waiting,
    fun _ hs hphase hagenda => (step_of_nil hagenda).trans (engineTurn_of_waiting hs hphase)⟩

/-- Settles O44: `State.resetWith` writes the reset values of 10_state.md R36. -/
theorem resetRegisters : Obligations.ResetRegisters :=
  ⟨fun _ _ => ⟨rfl, rfl, rfl, rfl, rfl, rfl, rfl, rfl⟩, rfl, rfl⟩

end Sys2Proof.Machine
end

section
/-! The schedule does not depend on the data (20_memory.md R62): where S and K alone differ, instructions and turns that
complete leave states that differ in S and K alone. -/

namespace Sys2Proof.Machine

/-- Two answers that, where both are next states, differ in S and K only. -/
def SameSchedule (r r' : Out) : Prop := ∀ t t', r = .next t → r' = .next t' → ∃ S K, t' = withData t S K

theorem sameSchedule_next {t t' : State} {S K : List Reg} (h : t' = withData t S K) :
    SameSchedule (.next t) (.next t') := by
  rintro _ _ ⟨⟩ ⟨⟩
  exact ⟨S, K, h⟩

/-- An answer that is no next state is not compared. -/
theorem sameSchedule_of_stop {r r' : Out} (h : (∀ t, r ≠ .next t) ∨ ∀ t, r' ≠ .next t) : SameSchedule r r' := by
  intro t t' hr hr'
  obtain h | h := h
  · exact absurd hr (h t)
  · exact absurd hr' (h t')

section Data

variable {s : State} {S K : List Reg}

theorem onLegal_sameSchedule {k k' : Phase → Out} (h : ∀ p, SameSchedule (k p) (k' p)) :
    SameSchedule (onLegal s k) (onLegal (withData s S K) k') := by
  intro t t' ht ht'
  obtain ⟨p, hp, -, hk⟩ := onLegal_next ht
  obtain ⟨p', hp', -, hk'⟩ := onLegal_next ht'
  obtain rfl : p = p' := Option.some.inj ((phaseOf_eq_some_iff.2 hp).symm.trans (phaseOf_eq_some_iff.2 hp'))
  exact h p t t' hk hk'

theorem onCommand_sameSchedule {k k' : Phase → Out} (h : ∀ p, SameSchedule (k p) (k' p)) :
    SameSchedule (onCommand s k) (onCommand (withData s S K) k') := by
  refine onLegal_sameSchedule fun p => ?_
  rw [withData_fault]
  split
  · exact sameSchedule_next rfl
  · exact h p

theorem onEngine_sameSchedule {k k' : Phase → Out} (h : ∀ p, SameSchedule (k p) (k' p)) :
    SameSchedule (onEngine s k) (onEngine (withData s S K) k') := by
  refine onCommand_sameSchedule fun p => ?_
  split
  · exact h p
  · exact sameSchedule_of_stop (.inl nofun)

theorem withLanes_sameSchedule {s s' : State} {regs regs' : List Reg} {k k' : List Nat → Out}
    (h : ∀ vs vs', SameSchedule (k vs) (k' vs')) : SameSchedule (withLanes s regs k) (withLanes s' regs' k') := by
  intro t t' ht ht'
  obtain ⟨vs, -, hk⟩ := withLanes_next ht
  obtain ⟨vs', -, hk'⟩ := withLanes_next ht'
  exact h vs vs' t t' hk hk'

theorem withRom_sameSchedule {α : Type} {words words' : Option α} {k k' : α → Out}
    (h : ∀ v v', SameSchedule (k v) (k' v')) : SameSchedule (withRom words k) (withRom words' k') := by
  intro t t' ht ht'
  obtain ⟨v, -, hk⟩ := withRom_next ht
  obtain ⟨v', -, hk'⟩ := withRom_next ht'
  exact h v v' t t' hk hk'

theorem raiseFault_withData (cause : BitVec 2) :
    raiseFault cause (withData s S K) = withData (raiseFault cause s) S K := by
  rw [raiseFault, raiseFault, withData_fault]
  split <;> rfl

/-- NEXT reads neither S nor K, so it moves alike whatever the micro-operation has written to them. -/
theorem advance_sameSchedule (p : Phase) (S₁ K₁ S₂ K₂ : List Reg) :
    SameSchedule (.next (advance p (withData s S₁ K₁))) (.next (advance p (withData s S₂ K₂))) :=
  sameSchedule_next (S := S₂) (K := K₂) rfl

/-- No instruction decides by a value of S or K where it leads. -/
theorem exec_sameSchedule (i : Instr) : SameSchedule (exec i s) (exec i (withData s S K)) := by
  cases i with
  | nop => exact onLegal_sameSchedule fun _ => sameSchedule_next rfl
  | noCommand => exact onLegal_sameSchedule fun _ => sameSchedule_next rfl
  | lrc seg rnd =>
    refine onEngine_sameSchedule fun p => ?_
    split
    · exact sameSchedule_of_stop (.inl nofun)
    · rw [withData_cfg]
      split
      · exact withRom_sameSchedule fun ks ks' => advance_sameSchedule p s.S (ks.map some) S (ks'.map some)
      · exact sameSchedule_of_stop (.inl nofun)
  | arc =>
    exact onEngine_sameSchedule fun p => withLanes_sameSchedule fun vs vs' => withLanes_sameSchedule fun ks ks' =>
      advance_sameSchedule p _ s.K _ K
  | sbf => exact onEngine_sameSchedule fun p => withLanes_sameSchedule fun vs vs' => advance_sameSchedule p _ s.K _ K
  | sbp =>
    refine onEngine_sameSchedule fun p => ?_
    split
    · split
      · exact advance_sameSchedule p _ s.K _ K
      · exact sameSchedule_of_stop (.inr nofun)
    · exact sameSchedule_of_stop (.inl nofun)
  | mds =>
    exact onEngine_sameSchedule fun p => withLanes_sameSchedule fun vs vs' => withRom_sameSchedule fun rows rows' =>
      advance_sameSchedule p _ s.K _ K
  | start inp =>
    refine onCommand_sameSchedule fun p => ?_
    rw [raiseFault_withData, raiseFault_withData, withData_cfg]
    split
    · exact sameSchedule_next rfl
    · split
      · exact sameSchedule_of_stop (.inl nofun)
      · split
        · exact sameSchedule_next rfl
        · exact sameSchedule_next (t := started inp s) rfl
  | ack =>
    refine onCommand_sameSchedule fun p => ?_
    rw [raiseFault_withData]
    split
    · exact sameSchedule_next rfl
    · exact sameSchedule_next rfl

theorem engineTurn_sameSchedule : SameSchedule (engineTurn s) (engineTurn (withData s S K)) := by
  refine onCommand_sameSchedule fun p => ?_
  rw [withData_cfg, withData_round, withData_step]
  split
  · exact exec_sameSchedule _
  · exact sameSchedule_of_stop (.inl nofun)

theorem hostTurn_sameSchedule (d : PortDrive) : SameSchedule (hostTurn d s) (hostTurn d (withData s S K)) := by
  unfold hostTurn
  split
  · exact sameSchedule_next (t := resetRegs s) rfl
  · split
    · exact exec_sameSchedule _
    · exact onCommand_sameSchedule fun p => sameSchedule_next (raiseFault_withData badCmd)

theorem step_sameSchedule : SameSchedule (step s) (step (withData s S K)) := by
  unfold step
  rw [withData_agenda]
  split
  · exact engineTurn_sameSchedule
  · next turn rest hagenda =>
    cases turn with
    | engine => exact engineTurn_sameSchedule (s := writeAgenda s rest)
    | host d => exact hostTurn_sameSchedule (s := writeAgenda s rest) d

end Data

/-- Settles O34: the two steps leave states that differ in S and K alone. -/
theorem scheduleIgnoresData : Obligations.ScheduleIgnoresData := by
  rintro s t _ t' regS regK rfl h h'
  obtain ⟨S, K, rfl⟩ := step_sameSchedule t t' h h'
  exact ⟨rfl, rfl, rfl, rfl, rfl, rfl⟩

end Sys2Proof.Machine
end
